-- ==== Sys2Proof/Word.lean ====
section
/-! DEFINITION. The word types of the LEB128 codec core (00_scope.md rules R4, R8, R9). -/

namespace Sys2Proof

/-- `u8`: one byte of a stream, and the width of `CMD` and `STATUS` (R9, R15). -/
abbrev Byte := BitVec 8

/-- `u128` and `i128`: one 128-bit pattern, read as unsigned or as two's complement (R4, R9). -/
abbrev Word := BitVec 128

end Sys2Proof
end

