-- ==== Sys2Proof/Syntax.lean ====
section
/-! DEFINITION. The instructions: the four commands of the opcode table (00_scope.md rule R2, 30_encoding.md rule R58). -/

namespace Sys2Proof

/-- One constructor per row of spec/opcode_table.json.
No command names a register operand (R13): an encoder's operand is `VALUE`, a decoder's is its source. -/
inductive Instr where
  /-- `ENC_U`: unsigned encode (R70). -/
  | encU
  /-- `ENC_S`: signed encode (R73). -/
  | encS
  /-- `DEC_U`: unsigned decode (R82). -/
  | decU
  /-- `DEC_S`: signed decode (R87). -/
  | decS
deriving DecidableEq, Repr

end Sys2Proof
end

