-- ==== Sys2Proof/WellFormed.lean ====
section
/-! DEFINITION. What is well formed: every command, and the command words that carry one
(10_state.md rule R16, 30_encoding.md rules R58 and R59). -/

namespace Sys2Proof

/-- An instruction's own fields.
A command carries none (R13), so every command is well formed. -/
def Instr.wf : Instr → Bool
  | .encU => true
  | .encS => true
  | .decU => true
  | .decS => true

/-- `START`, bit 7 of a command word, is written as 1 (R16). -/
def startSet (w : Byte) : Bool := w.getLsbD 7

/-- The reserved bits 6:2 of a command word are written as 0 (R16). -/
def reservedClear (w : Byte) : Bool := w.extractLsb' 2 5 == 0#5

/-- A byte written to `CMD` is a command: `START` = 1 and the reserved bits 0 (R23, R58). -/
def cmdWordWf (w : Byte) : Bool := startSet w && reservedClear w

end Sys2Proof
end

