-- ==== Sys2Proof/Decode.lean ====
section
/-! DEFINITION. Decoding and encoding the command word `CMD8` (10_state.md rule R16, 30_encoding.md rules R58 and R59). -/

namespace Sys2Proof

/-- Why a byte written to `CMD` is no command (R59). -/
inductive CmdReject where
  /-- `START` = 0: no command, no effect at all. -/
  | startClear
  /-- `START` = 1 with any of bits 6:2 set: a reserved encoding, refused. -/
  | reservedSet
deriving DecidableEq, Repr

/-- `CMD.OP`, bits 1:0 of a command word (R16). -/
def opField (w : Byte) : BitVec 2 := w.extractLsb' 0 2

/-- `CMD.START`, bit 7 of a command word (R16). -/
def startField (w : Byte) : Bool := w.getLsbD 7

/-- The reserved bits 6:2 of a command word (R16). -/
def reservedField (w : Byte) : BitVec 5 := w.extractLsb' 2 5

/-- The command a 2-bit `OP` selects; every value selects one (R58). -/
def instrOfOp (o : BitVec 2) : Instr :=
  if o = 0b00#2 then .encU
  else if o = 0b01#2 then .encS
  else if o = 0b10#2 then .decU
  else .decS

/-- The `OP` of a command (R16, R58). -/
def Instr.op : Instr → BitVec 2
  | .encU => 0b00#2
  | .encS => 0b01#2
  | .decU => 0b10#2
  | .decS => 0b11#2

/-- The command a byte written to `CMD` carries, or the reason it carries none (R58, R59).
`START` = 0 comes first: such a write has no effect "whatever the other bits". -/
def decode (w : Byte) : Except CmdReject Instr :=
  if startField w then
    if reservedField w = 0#5 then .ok (instrOfOp (opField w)) else .error .reservedSet
  else .error .startClear

/-- The command word of a command: `START` = 1, reserved bits 0, `OP` (R16, R58). -/
def encode (i : Instr) : Byte := 1#1 ++ 0#5 ++ i.op

/-- The instruction the decoder reads from an opcode-table word of `nbits` bits.
A command word has a single length of 8 bits (R58); bits above `nbits` are 0, and a word that does not fit is none. -/
def decodeTableWord (nbits w : Nat) : Option Instr :=
  if w % 2 ^ nbits < 256 then
    match decode (BitVec.ofNat 8 (w % 2 ^ nbits)) with
    | .ok i => some i
    | .error _ => none
  else none

end Sys2Proof
end

