-- ==== Sys2Proof/Config.lean ====
section
/-! DEFINITION. The parameters of 00_scope.md rule R7, the answers a stream may give (20_memory.md rules R36 and R37),
and the free values: the draws of a stream oracle. -/

namespace Sys2Proof

/-- Why a source fails a read request (R36): it has ended, or any other failure it reports. -/
inductive SourceFail where
  | eof
  | other
deriving DecidableEq, Repr, Inhabited

/-- Why a sink fails a write request (R37): it cannot accept a byte, or any other failure. -/
inductive SinkFail where
  | refused
  | other
deriving DecidableEq, Repr, Inhabited

/-- The answer to `MemRead(SRC, 1)` (R36). -/
inductive ReadAnswer where
  | byte (b : Byte)
  | fail (k : SourceFail)
deriving DecidableEq, Repr, Inhabited

/-- The answer to `MemWrite(SNK, 1, b)` (R37). -/
inductive WriteAnswer where
  | ok
  | fail (k : SinkFail)
deriving DecidableEq, Repr, Inhabited

/-- `BOUNDARY_SET` (R7, R85): which byte values the decoders accept at shift 126. -/
inductive BoundarySet where
  | derived
  | literal
deriving DecidableEq, Repr, Inhabited

/-- The parameters of R7 that a core is built with.
`BOUNDARY_SET` defaults to `DERIVED`; no step changes it (log entry 10). -/
structure Config where
  boundarySet : BoundarySet := .derived
deriving DecidableEq, Repr

/-- `BOUNDARY` (R7): the shift at which the overflow guard tests the byte, 7 × 18. -/
abbrev Config.boundary : BitVec 8 := 126

/-- `MAXLEN` (R7, R56): the longest encoding an encoder writes. -/
abbrev Config.maxLen : Nat := 19

/-- FREE VALUE (U5, D4; log entry 3): what source number `stream` gives at draw `n`, if it draws its answers.
`none` says that no answer has come yet (R112).
Streams of different numbers answer independently: nothing relates their draws. -/
opaque Config.sourceDraw : (stream n : Nat) → Option ReadAnswer

/-- FREE VALUE (U5, D4; log entry 3): what sink number `stream` gives at draw `n`, if it draws its answers.
`none` says that no answer has come yet (R112).
Streams of different numbers answer independently: nothing relates their draws. -/
opaque Config.sinkDraw : (stream n : Nat) → Option WriteAnswer

end Sys2Proof
end

