-- ==== Sys2Proof/Machine/State.lean ====
section
/-! DEFINITION. The state of the machine as plain data: the core state tuple of 10_state.md rule R32, the two streams it
borrows (20_memory.md), the coming actions of the host (30_encoding.md rule R67, 70_reset_and_hazards.md), and the state
after reset (10_state.md rule R31). -/

namespace Sys2Proof.Machine

/-- `PHASE` (R14, R22). -/
inductive Phase where
  | idle
  | run
  | drain
deriving DecidableEq, Repr

/-- `STATUS.CODE` (R19). -/
inductive Code where
  /-- 0 `NONE`: no command has ended since reset, or one is running. -/
  | noOutcome
  /-- 1 `OK`. -/
  | ok
  /-- 2 `IO_ERROR`. -/
  | ioError
  /-- 3 `OVERFLOW`. -/
  | overflow
deriving DecidableEq, Repr

/-- What a source does once the answers listed ahead are used up. -/
inductive SourceTail where
  /-- It never answers (R92, R112). -/
  | waits
  /-- It fails every request; the reference source fails with `EOF` (R47). -/
  | fails (k : SourceFail)
  /-- It supplies the same byte for ever (a source that never ends, R92). -/
  | repeats (b : Byte)
  /-- It answers by the free draws of `Config.sourceDraw` for its number, the next one being draw `n` (log entry 3). -/
  | draws (stream n : Nat)
deriving DecidableEq, Repr

/-- What a sink does once the answers listed ahead are used up. -/
inductive SinkTail where
  /-- It never answers (R112). -/
  | waits
  /-- It accepts every byte (the unbounded reference sink, R47). -/
  | accepts
  /-- It fails every request; the full reference sink fails with `REFUSED` (R47). -/
  | fails (k : SinkFail)
  /-- It answers by the free draws of `Config.sinkDraw` for its number, the next one being draw `n` (log entry 3). -/
  | draws (stream n : Nat)
deriving DecidableEq, Repr

/-- The byte source `SRC` (R36; log entry 2).
`taken` are the bytes supplied so far, in stream order; its length is the cursor (R30).
`ahead` are the answers to the coming requests, in order, and `tail` what comes after them. -/
structure Source where
  taken : List Byte
  ahead : List ReadAnswer
  tail  : SourceTail
deriving DecidableEq, Repr

/-- The byte sink `SNK` (R37; log entry 2).
`held` are the bytes it has accepted, in stream order; its length is the cursor (R30).
`ahead` are the answers to the coming requests, in order, and `tail` what comes after them. -/
structure Sink where
  held  : List Byte
  ahead : List WriteAnswer
  tail  : SinkTail
deriving DecidableEq, Repr

/-- One action of the agenda (log entry 4): a host transaction (R15, R24, R67), an environment action (R114, R117), or the
core's own turn. -/
inductive Move where
  /-- The core takes its next step. -/
  | coreStep
  /-- `wait`: read `STATUS` until `BUSY` = 0 (R67). -/
  | wait
  /-- Write `CMD` (R16). -/
  | writeCmd (w : Byte)
  /-- Write `VALUE` (R17). -/
  | writeValue (x : Word)
  /-- Write `STATUS`; ignored (R24). -/
  | writeStatus (w : Byte)
  /-- Write `RESULT`; ignored (R24). -/
  | writeResult (x : Word)
  /-- Read `CMD` (R16). -/
  | readCmd
  /-- Read `VALUE` (R17). -/
  | readValue
  /-- Read `STATUS` (R18). -/
  | readStatus
  /-- Read `RESULT` (R21). -/
  | readResult
  /-- Connect a byte source (R117). -/
  | connectSource (q : Source)
  /-- Connect a byte sink (R117). -/
  | connectSink (k : Sink)
  /-- Reset (R114); `pendingMoved` says whether a request pending at reset was carried out by its stream (R116). -/
  | reset (pendingMoved : Bool)
deriving DecidableEq, Repr

/-- What a host read returned, under the name of the register read (R15). -/
inductive Reading where
  | cmd (w : Byte)
  | value (x : Word)
  | status (w : Byte)
  | result (x : Word)
deriving DecidableEq, Repr

/-- The machine's state: the tuple of R32 (`config` to `refusalMark`), the streams, and the model's own two fields.
An Option's `none` is the spec's "no value" (R21, R28, R31, R32; log entry 6). -/
structure State where
  /-- The parameters the core is built with (R7). -/
  config : Config
  /-- `PHASE` (R22). -/
  phase : Phase
  /-- `OP`: the latched command (R22). -/
  op : Option (BitVec 2)
  /-- `V`: the remaining value (R22). -/
  v : Option Word
  /-- `DONE` (R22). -/
  done : Option Bool
  /-- `COUNT`: bytes written so far (R22). -/
  count : Option (BitVec 5)
  /-- `ACC`: the accumulator (R22). -/
  acc : Option Word
  /-- `SHIFT`: the bit position of the next group (R22). -/
  shift : Option (BitVec 8)
  /-- `B`: the byte most recently read (R22). -/
  b : Option Byte
  /-- `VALUE` (R17). -/
  value : Option Word
  /-- `STATUS.CODE` (R18, R19). -/
  code : Code
  /-- `STATUS.IO_KIND` (R18, R20). -/
  ioKind : BitVec 2
  /-- `STATUS.LAST_OP` (R18). -/
  lastOp : BitVec 2
  /-- `RESULT` (R21). -/
  result : Option Word
  /-- The refusal mark (R32). -/
  refusalMark : Bool
  /-- `SRC` (R29). -/
  src : Source
  /-- `SNK` (R29). -/
  snk : Sink
  /-- The model's own: the coming actions of the host and the environment (log entry 4). -/
  agenda : List Move
  /-- The model's own: what the host's last register read returned (log entry 5). -/
  readData : Option Reading
deriving DecidableEq, Repr

/-- Why a step stops with a fault.
All are safe: the model stops where the spec gives no value. -/
inductive Fault where
  /-- Raised by a host read of `RESULT` while it holds no value: "A model treats a host read of `RESULT` in those cases as a
  fault, not as a value" (R21; R122, U1, D6). Safe. -/
  | resultHoldsNoValue
  /-- Raised by a host read of `VALUE`, or the start of an encode, before the host writes `VALUE`: "A model faults on a read, or
  on an encode command, before the host writes it" (R31; R117, U2, D25). Safe. -/
  | valueHoldsNoValue
  /-- Raised by a request step whose datapath register holds no value (R28, U3); no run from reset reaches it. Safe. -/
  | datapathHoldsNoValue
  /-- Raised by an encoder's step in `DRAIN`, which only decoders enter (R22); no run from reset reaches it. Safe. -/
  | encoderInDrain
deriving DecidableEq, Repr

/-- Why the model has no meaning for a step. -/
inductive Refusal where
  /-- Raised by an arm of `exec` whose instruction has no meaning yet; none is left. Safe. -/
  | notModelled (mnemonic : String)
  /-- Raised by a connect action on the stream that the running command borrows: the spec gives such an agent no move
  (R43, R121). Safe for the core; a system that breaks the duty is outside the model. -/
  | streamBorrowed
deriving DecidableEq, Repr

/-- The state after reset: the table of R31.
The streams are not core state (R31): the model starts with nothing moved and free oracles, both of number 0
(log entry 3); the cores of a system get a number each (`resetCores`, log entry 20).
The agenda is empty and nothing has been read (log entries 4 and 5). -/
def State.reset : State where
  config := {}
  phase := .idle
  op := none
  v := none
  done := none
  count := none
  acc := none
  shift := none
  b := none
  value := none
  code := .noOutcome
  ioKind := 0
  lastOp := 0
  result := none
  refusalMark := false
  src := { taken := [], ahead := [], tail := .draws 0 0 }
  snk := { held := [], ahead := [], tail := .draws 0 0 }
  agenda := []
  readData := none

end Sys2Proof.Machine
end

