-- ==== Sys2Proof/Machine/Flags.lean ====
section
/-! DEFINITION. The one-bit conditions of 10_state.md rule R27 and the `STATUS` register of rule R18. -/

namespace Sys2Proof.Machine

/-- The continuation bit of an encoded byte: bit 7, mask 0x80 (R35, R48). -/
def contBit (b : Byte) : Bool := b.getLsbD 7

/-- The sign bit of an encoded byte: bit 6, mask 0x40 (R35). -/
def signBit (b : Byte) : Bool := b.getLsbD 6

/-- `byte | 0x80`: more groups follow (R70, R73). -/
def setCont (b : Byte) : Byte := b ||| 0x80#8

/-- `byte & 0x7F`: the terminal byte (R73). -/
def clearCont (b : Byte) : Byte := b &&& 0x7F#8

/-- The termination test of `ENC_S` on the value shifted right by 6: `(V == 0) or (V == -1)` (R73). -/
def signedDone (x : Word) : Bool := x == 0#128 || x == BitVec.allOnes 128

/-- `STATUS.BUSY`: 1 while `PHASE` is not `IDLE` (R18). -/
def State.busy (s : State) : Bool := s.phase != .idle

/-- The numeric codes of `STATUS.CODE` (R19). -/
def Code.bits : Code → BitVec 2
  | .noOutcome => 0
  | .ok => 1
  | .ioError => 2
  | .overflow => 3

/-- `STATUS.IO_KIND` of a source's failure: `EOF` 0, `OTHER` 2 (R20, R100). -/
def sourceKind : SourceFail → BitVec 2
  | .eof => 0
  | .other => 2

/-- `STATUS.IO_KIND` of a sink's failure: `REFUSED` 1, `OTHER` 2 (R20, R100). -/
def sinkKind : SinkFail → BitVec 2
  | .refused => 1
  | .other => 2

/-- The `STATUS` byte: bit 7 zero, `LAST_OP` 6:5, `IO_KIND` 4:3, `CODE` 2:1, `BUSY` 0 (R18). -/
def State.status (s : State) : Byte :=
  0#1 ++ s.lastOp ++ s.ioKind ++ s.code.bits ++ BitVec.ofBool s.busy

end Sys2Proof.Machine
end

