-- ==== Sys2Proof/Machine/Operands.lean ====
section
/-! DEFINITION. Operand assembly (30_encoding.md rule R57): groups out of a value, groups into the accumulator, sign
extension, and the permitted bytes at shift 126 (41_decoders.md rules R80, R85 and R88). -/

namespace Sys2Proof.Machine

/-- `zext_8(V[6:0])`: the low group of the remaining value as a byte with bit 7 clear (R57). -/
def lowGroup (x : Word) : Byte := (x.extractLsb' 0 7).setWidth 8

/-- `zext_128(B[6:0])`: the group of a byte (R57). -/
def byteGroup (b : Byte) : Word := (b.extractLsb' 0 7).setWidth 128

/-- `ACC | (zext_128(B[6:0]) << SHIFT)` (R80): bits pushed above bit 127 are lost (R9). -/
def placeGroup (acc : Word) (b : Byte) (sh : BitVec 8) : Word := acc ||| (byteGroup b <<< sh.toNat)

/-- `ACC | (~zext_128(0) << SHIFT)`: set bits 127:SHIFT (R87, R88). -/
def setBitsFrom (acc : Word) (sh : BitVec 8) : Word := acc ||| (BitVec.allOnes 128 <<< sh.toNat)

/-- The sign extension after `DEC_S`'s loop: only when `SHIFT` < 128 and bit 6 of the terminal byte is 1 (R88). -/
def signExtendFrom (acc : Word) (b : Byte) (sh : BitVec 8) : Word :=
  if sh.toNat < 128 && signBit b then setBitsFrom acc sh else acc

/-- `PERMIT_U` (R85). -/
def permitU : BoundarySet → List Byte
  | .derived => [0x00, 0x01, 0x02, 0x03]
  | .literal => [0x00, 0x01]

/-- `PERMIT_S` (R85). -/
def permitS : BoundarySet → List Byte
  | .derived => [0x00, 0x01, 0x7E, 0x7F]
  | .literal => [0x00, 0x7F]

/-- The overflow guard's test fails: `SHIFT == 126 and B not in PERMIT` (R84, R85). -/
def guardFails (permit : List Byte) (sh : BitVec 8) (b : Byte) : Bool :=
  sh == Config.boundary && !permit.contains b

/-- The byte `ENC_U` offers for the remaining value: bit 7 is set when a nonzero magnitude remains after the shift (R70). -/
def unsignedByte (x : Word) : Byte := if x >>> 7 = 0#128 then lowGroup x else setCont (lowGroup x)

/-- `DONE` for the remaining value: the value shifted right by 6 is 0 or −1 (R73). -/
def signedLast (x : Word) : Bool := signedDone (x.sshiftRight 6)

/-- `V` after a group of `ENC_S`: shifted by 6, and by 1 more unless the group was the last (R73). -/
def signedRest (x : Word) : Word :=
  if signedLast x then x.sshiftRight 6 else (x.sshiftRight 6).sshiftRight 1

/-- The byte `ENC_S` offers for the remaining value (R73). -/
def signedByte (x : Word) : Byte :=
  if signedLast x then clearCont (lowGroup x) else setCont (lowGroup x)

end Sys2Proof.Machine
end

