-- ==== Sys2Proof/Machine/Ops.lean ====
section
/-! DEFINITION. The shared operations: stream requests (20_memory.md rules R36 to R39 and R47), the start of a command and
its endings (10_state.md rules R23, R25 and R26), one request step, the drain (41_decoders.md rule R86), and reset
(70_reset_and_hazards.md rules R114 to R116). -/

namespace Sys2Proof.Machine

/-! ### Streams -/

/-- A supplied byte is consumed: the cursor moves past it (R36, R39); a failure transfers nothing (R38). -/
def Source.record (q : Source) : ReadAnswer → Source
  | .byte b => { q with taken := q.taken ++ [b] }
  | .fail _ => q

/-- `MemRead(SRC, 1)` (R36): the answer, or none while the source withholds it (R112), and the source after it. -/
def Source.read (q : Source) : Option ReadAnswer × Source :=
  match q.ahead with
  | a :: rest => (some a, Source.record { q with ahead := rest } a)
  | [] =>
    match q.tail with
    | .waits => (none, q)
    | .fails k => (some (.fail k), q)
    | .repeats b => (some (.byte b), q.record (.byte b))
    | .draws i n =>
      match Config.sourceDraw i n with
      | none => (none, { q with tail := .draws i (n + 1) })
      | some a => (some a, Source.record { q with tail := .draws i (n + 1) } a)

/-- An accepted byte is the next byte of the sink (R37, R39); a failure transfers nothing (R38). -/
def Sink.record (k : Sink) (b : Byte) : WriteAnswer → Sink
  | .ok => { k with held := k.held ++ [b] }
  | .fail _ => k

/-- `MemWrite(SNK, 1, b)` (R37): the answer, or none while the sink withholds it (R112), and the sink after it. -/
def Sink.write (k : Sink) (b : Byte) : Option WriteAnswer × Sink :=
  match k.ahead with
  | a :: rest => (some a, Sink.record { k with ahead := rest } b a)
  | [] =>
    match k.tail with
    | .waits => (none, k)
    | .accepts => (some .ok, k.record b .ok)
    | .fails f => (some (.fail f), k)
    | .draws i n =>
      match Config.sinkDraw i n with
      | none => (none, { k with tail := .draws i (n + 1) })
      | some a => (some a, Sink.record { k with tail := .draws i (n + 1) } b a)

/-- The reference source of R47: the bytes `bs` with the cursor at `i`. -/
def Source.reference (bs : List Byte) (i : Nat) : Source where
  taken := bs.take i
  ahead := (bs.drop i).map .byte
  tail := .fails .eof

/-- The reference sink of R47 holding `bs`: capacity `cap`, or unbounded where `cap` is none. -/
def Sink.reference (bs : List Byte) : Option Nat → Sink
  | some cap => { held := bs, ahead := List.replicate (cap - bs.length) .ok, tail := .fails .refused }
  | none => { held := bs, ahead := [], tail := .accepts }

/-! ### Start and endings -/

/-- The datapath registers other than `OP` hold no value (R28). -/
def State.clearDatapath (s : State) : State :=
  { s with v := none, done := none, count := none, acc := none, shift := none, b := none }

/-- What every start does (R23), before the command's own initialisation.
A command begins with fresh datapath values (log entry 18). -/
def State.startCommand (i : Instr) (s : State) : State :=
  { s.clearDatapath with
    phase := .run, op := some i.op, lastOp := i.op, code := .noOutcome, ioKind := 0, result := none }

/-- The start of an encode (R17, R23): `VALUE` is read once, into `V`.
Without a value in `VALUE` it faults (R31, R117). -/
def startEncode (i : Instr) (s : State) : Host.Outcome State Fault Refusal :=
  match s.value with
  | some x => .next { s.startCommand i with v := some x, count := some 0 }
  | none => .fault .valueHoldsNoValue

/-- The start of a decode (R23). -/
def startDecode (i : Instr) (s : State) : Host.Outcome State Fault Refusal :=
  .next { s.startCommand i with acc := some 0, shift := some 0 }

/-- Every ending of a command (R25, R26): `STATUS` and `RESULT` are written, `PHASE` is `IDLE`, and the datapath holds no
value.
This takes the place of taking an exception: the core has no traps (R96), saves nothing and transfers no control (R105). -/
def State.endCommand (code : Code) (kind : BitVec 2) (result : Option Word) (s : State) : State :=
  { s.clearDatapath with phase := .idle, code := code, ioKind := kind, result := result }

/-- `finish(d)` (R25). -/
def State.finish (d : Word) (s : State) : State := s.endCommand .ok 0 (some d)

/-- `raise IoError(k)` (R26, R102). -/
def State.raiseIoError (kind : BitVec 2) (s : State) : State := s.endCommand .ioError kind none

/-- `raise Overflow()` (R26, R103). -/
def State.raiseOverflow (s : State) : State := s.endCommand .overflow 0 none

/-! ### Request steps -/

/-- One write-request step (R10, R38): a failure ends the command (R69); while no answer comes every register keeps its
value (R112).
MODEL'S CHOICE (log entry 21): a turn without an answer is a step of its own, and the next turn asks the sink again. -/
def writeRequest (b : Byte) (accepted : State → State) (s : State) : Host.Outcome State Fault Refusal :=
  match s.snk.write b with
  | (none, k) => .next { s with snk := k }
  | (some (.fail f), k) => .next (State.raiseIoError (sinkKind f) { s with snk := k })
  | (some .ok, k) => .next (accepted { s with snk := k })

/-- One read-request step (R10, R38): a failure ends the command (R91); a byte goes into `B` (R78); while no answer comes
every register keeps its value (R112).
MODEL'S CHOICE (log entry 21): a turn without an answer is a step of its own, and the next turn asks the source again. -/
def readRequest (supplied : Byte → State → State) (s : State) : Host.Outcome State Fault Refusal :=
  match s.src.read with
  | (none, q) => .next { s with src := q }
  | (some (.fail f), q) => .next (State.raiseIoError (sourceKind f) { s with src := q })
  | (some (.byte b), q) => .next (supplied b { s with src := q, b := some b })

/-- The drain's loop test on the byte just read: go on in `DRAIN`, or raise `Overflow` (R86). -/
def State.drainOn (b : Byte) (s : State) : State :=
  if contBit b then { s with phase := .drain } else s.raiseOverflow

/-- One step of the drain (R86): read on while the last byte has bit 7 set. -/
def drainRequest (s : State) : Host.Outcome State Fault Refusal :=
  match s.b with
  | none => .fault .datapathHoldsNoValue
  | some last => if contBit last then readRequest State.drainOn s else .next s.raiseOverflow

/-! ### Reset -/

/-- The byte the running encode's pending request offers; none for a decode. -/
def State.pendingByte (s : State) : Option Byte :=
  match s.op.map instrOfOp, s.v with
  | some .encU, some x => some (unsignedByte x)
  | some .encS, some x => some (signedByte x)
  | _, _ => none

/-- A request pending at reset is carried out by its stream, and its answer is lost (R116). -/
def State.carryOutPending (s : State) : State :=
  match s.phase, s.op.map instrOfOp with
  | .idle, _ => s
  | _, some .encU | _, some .encS =>
    match s.pendingByte with
    | some b => { s with snk := (s.snk.write b).2 }
    | none => s
  | _, some .decU | _, some .decS => { s with src := s.src.read.2 }
  | _, none => s

/-- Reset (R114 to R116): the core state of R31; the streams keep every byte already moved.
`pendingMoved` says whether a pending request was carried out (log entry 9).
The refusal mark is never cleared (R32; log entry 8). -/
def State.resetCore (pendingMoved : Bool) (s : State) : State :=
  let t := if pendingMoved then s.carryOutPending else s
  { State.reset with
    config := s.config, refusalMark := s.refusalMark, src := t.src, snk := t.snk, agenda := s.agenda,
    readData := s.readData }

/-- A core built with the given parameters (R7), right after reset. -/
def State.resetWith (c : Config) : State := { State.reset with config := c }

end Sys2Proof.Machine
end

