-- ==== Sys2Proof/Machine/Decoders.lean ====
section
/-! DEFINITION. The decode commands (41_decoders.md).
The meaning of a command is its NEXT STEP: the start (10_state.md rule R23) when `PHASE` is `IDLE`, else one request of its
loop in `RUN` or of its drain in `DRAIN` (log entry 1). -/

namespace Sys2Proof.Machine

/-- What `DEC_U` does with a byte supplied in `RUN`: guard, accumulate, terminal test, in this order (R82, R98). -/
def decodeUnsignedSupplied (acc : Word) (sh : BitVec 8) (b : Byte) (s : State) : State :=
  if guardFails (permitU s.config.boundarySet) sh b then s.drainOn b
  else if contBit b then { s with acc := some (placeGroup acc b sh), shift := some (sh + 7) }
  else s.finish (placeGroup acc b sh)

/-- `DEC_U` (R82). -/
def execDecU (s : State) : Host.Outcome State Fault Refusal :=
  match s.phase with
  | .idle => startDecode .decU s
  | .run =>
    match s.acc, s.shift with
    | some acc, some sh => readRequest (decodeUnsignedSupplied acc sh) s
    | _, _ => .fault .datapathHoldsNoValue
  | .drain => drainRequest s

/-- What `DEC_S` does with a byte supplied in `RUN` (R87): `SHIFT` counts the terminal byte too (R89). -/
def decodeSignedSupplied (acc : Word) (sh : BitVec 8) (b : Byte) (s : State) : State :=
  if guardFails (permitS s.config.boundarySet) sh b then s.drainOn b
  else if contBit b then { s with acc := some (placeGroup acc b sh), shift := some (sh + 7) }
  else s.finish (signExtendFrom (placeGroup acc b sh) b (sh + 7))

/-- `DEC_S` (R87). -/
def execDecS (s : State) : Host.Outcome State Fault Refusal :=
  match s.phase with
  | .idle => startDecode .decS s
  | .run =>
    match s.acc, s.shift with
    | some acc, some sh => readRequest (decodeSignedSupplied acc sh) s
    | _, _ => .fault .datapathHoldsNoValue
  | .drain => drainRequest s

end Sys2Proof.Machine
end

