-- ==== Sys2Proof/Machine/Encoders.lean ====
section
/-! DEFINITION. The encode commands (40_encoders.md).
The meaning of a command is its NEXT STEP: the start (10_state.md rule R23) when `PHASE` is `IDLE`, else one request of its
loop (log entry 1). -/

namespace Sys2Proof.Machine

/-- What `ENC_U` does once the sink has accepted the byte of `V` = `x` (R70). -/
def encodeUnsignedAccepted (x : Word) (c : BitVec 5) (s : State) : State :=
  if x >>> 7 = 0#128 then
    State.finish ((c + 1).setWidth 128) { s with v := some (x >>> 7), count := some (c + 1) }
  else { s with v := some (x >>> 7), count := some (c + 1) }

/-- `ENC_U` (R70). -/
def execEncU (s : State) : Host.Outcome State Fault Refusal :=
  match s.phase with
  | .idle => startEncode .encU s
  | .run =>
    match s.v, s.count with
    | some x, some c => writeRequest (unsignedByte x) (encodeUnsignedAccepted x c) s
    | _, _ => .fault .datapathHoldsNoValue
  | .drain => .fault .encoderInDrain

/-- What `ENC_S` does once the sink has accepted the byte of `V` = `x` (R73). -/
def encodeSignedAccepted (x : Word) (c : BitVec 5) (s : State) : State :=
  if signedLast x then
    State.finish ((c + 1).setWidth 128)
      { s with v := some (signedRest x), done := some true, count := some (c + 1) }
  else { s with v := some (signedRest x), done := some false, count := some (c + 1) }

/-- `ENC_S` (R73). -/
def execEncS (s : State) : Host.Outcome State Fault Refusal :=
  match s.phase with
  | .idle => startEncode .encS s
  | .run =>
    match s.v, s.count with
    | some x, some c => writeRequest (signedByte x) (encodeSignedAccepted x c) s
    | _, _ => .fault .datapathHoldsNoValue
  | .drain => .fault .encoderInDrain

end Sys2Proof.Machine
end

