-- ==== Sys2Proof/Machine/Dispatch.lean ====
section
/-! DEFINITION. One arm per command: the next step of that command (log entry 1). -/

namespace Sys2Proof.Machine

def exec (i : Instr) (s : State) : Host.Outcome State Fault Refusal :=
  match i with
  | .encU => Sys2Proof.Machine.execEncU s
  | .encS => Sys2Proof.Machine.execEncS s
  | .decU => Sys2Proof.Machine.execDecU s
  | .decS => Sys2Proof.Machine.execDecS s

end Sys2Proof.Machine
end

