-- ==== Sys2Proof/Machine/Moves.lean ====
section
/-! DEFINITION. What each action of the agenda does: the core's own turn, the host's register transactions (10_state.md
rules R15 to R24, 30_encoding.md rule R59, 70_reset_and_hazards.md rules R118 to R123), connecting a stream (rule R117) and
reset (rules R114 to R116). -/

namespace Sys2Proof.Machine

/-- The core's turn: the next step of the running command (R14, R22).
While `IDLE` the core does nothing (R109, R114). -/
def coreMove (s : State) : Host.Outcome State Fault Refusal :=
  match s.phase, s.op with
  | .idle, _ => .next s
  | _, some o => exec (instrOfOp o) s
  | _, none => .fault .datapathHoldsNoValue

/-- A refused `CMD` write (R59, R120): the refusal mark is set and nothing else changes (R32). -/
def State.refuse (s : State) : State := { s with refusalMark := true }

/-- A write of `CMD` (R16, R23, R59, R120). -/
def writeCmd (w : Byte) (s : State) : Host.Outcome State Fault Refusal :=
  match decode w with
  | .error .startClear => .next s
  | .error .reservedSet => .next s.refuse
  | .ok i => if s.busy then .next s.refuse else exec i s

/-- A register read hands its value to the host and changes nothing else (R24). -/
def State.reads (r : Reading) (s : State) : State := { s with readData := some r }

/-- A read of a register that may hold no value: without one the read faults (R21, R31). -/
def readOr (f : Fault) (x : Option Word) (r : Word → Reading) (s : State) : Host.Outcome State Fault Refusal :=
  match x with
  | some y => .next (s.reads (r y))
  | none => .fault f

/-- The running command borrows the source (R33, R43). -/
def State.borrowsSource (s : State) : Bool :=
  s.busy && (s.op.map instrOfOp == some .decU || s.op.map instrOfOp == some .decS)

/-- The running command borrows the sink (R33, R43). -/
def State.borrowsSink (s : State) : Bool :=
  s.busy && (s.op.map instrOfOp == some .encU || s.op.map instrOfOp == some .encS)

/-- One action of the agenda, on the state whose agenda it has been taken from.
A `wait` that finds `BUSY` = 1 stands in the agenda again, and the core takes its turn (log entry 12). -/
def takeMove (m : Move) (s : State) : Host.Outcome State Fault Refusal :=
  match m with
  | .coreStep => coreMove s
  | .wait =>
    if s.busy then coreMove { s.reads (.status s.status) with agenda := .wait :: s.agenda }
    else .next (s.reads (.status s.status))
  | .writeCmd w => writeCmd w s
  | .writeValue x => .next { s with value := some x }
  | .writeStatus _ => .next s
  | .writeResult _ => .next s
  | .readCmd => .next (s.reads (.cmd 0))
  | .readValue => readOr .valueHoldsNoValue s.value .value s
  | .readStatus => .next (s.reads (.status s.status))
  | .readResult => readOr .resultHoldsNoValue s.result .result s
  | .connectSource q => if s.borrowsSource then .refused .streamBorrowed else .next { s with src := q }
  | .connectSink k => if s.borrowsSink then .refused .streamBorrowed else .next { s with snk := k }
  | .reset moved => .next (s.resetCore moved)

end Sys2Proof.Machine
end

