-- ==== Sys2Proof/Machine/Step.lean ====
section
/-! DEFINITION. One step of the machine, and where its next command word is placed. -/

namespace Sys2Proof.Machine

/-- One step: the first action of the agenda, or the core's turn when the agenda is empty (log entry 4). -/
def step (s : State) : Host.Outcome State Fault Refusal :=
  match s.agenda with
  | [] => coreMove s
  | m :: rest => takeMove m { s with agenda := rest }

/-- The command word `w` is the host's next action: a write of `CMD` (R14, R58; log entry 17).
The core fetches no instructions (R46), so this is all that running it takes. -/
def State.withFetchWord (s : State) (nbits w : Nat) : State :=
  { s with agenda := .writeCmd (BitVec.ofNat 8 (w % 2 ^ nbits)) :: s.agenda }

end Sys2Proof.Machine
end

