-- ==== Sys2Proof/Machine/Bus.lean ====
section
/-! DEFINITION. `REG_MAP` (00_scope.md rule R7, 10_state.md rule R15, 20_memory.md rules R35 and R41; D14): the binding of
the host registers to a bus, if there is one.
The spec leaves all of it open, so all of it is an argument throughout (log entry 14). -/

namespace Sys2Proof.Machine

/-! ### Register transactions -/

/-- The four host-visible registers (R15). -/
inductive HostReg where
  | cmd
  | value
  | status
  | result
deriving DecidableEq, Repr

/-- The width of a host-visible register (R15). -/
def HostReg.width : HostReg → Nat
  | .cmd => 8
  | .value => 128
  | .status => 8
  | .result => 128

/-- A transaction of the host on one whole register (R15): the only way the outside reaches the registers. -/
inductive RegAccess where
  | read (r : HostReg)
  | write (r : HostReg) (x : Word)
deriving DecidableEq, Repr

/-- The host action of a transaction (R15); a write of a register narrower than `x` takes `x`'s low bits. -/
def RegAccess.move : RegAccess → Move
  | .read .cmd => .readCmd
  | .read .value => .readValue
  | .read .status => .readStatus
  | .read .result => .readResult
  | .write .cmd x => .writeCmd (x.setWidth 8)
  | .write .value x => .writeValue x
  | .write .status x => .writeStatus (x.setWidth 8)
  | .write .result x => .writeResult x

/-- The register a host read returned, and its value (R15). -/
def Reading.bits : Reading → HostReg × Nat
  | .cmd w => (.cmd, w.toNat)
  | .value x => (.value, x.toNat)
  | .status w => (.status, w.toNat)
  | .result x => (.result, x.toNat)

/-! ### `REG_MAP` as an argument -/

/-- An access on the bus: a read of the words at these addresses, or a write of these words with their addresses; one
address for a single access, several for a burst. -/
inductive BusAccess where
  | read (addrs : List Nat)
  | write (words : List (Nat × Nat))
deriving DecidableEq, Repr

/-- An access that has been made, with what the register reads it issued returned, in order. -/
structure BusEvent where
  access   : BusAccess
  readings : List Reading
deriving DecidableEq, Repr

/-- `REG_MAP` (R7, D14): how the registers are bound to a bus, with nothing assumed of it.
`issues` gives the register transactions of an access, and `returns` the words it returns, each from the accesses made so
far and the access itself, so that a binding may hold latches, take a register in parts, put several registers at one
address, or deny an access (R108). -/
structure BusBinding where
  issues  : List BusEvent → BusAccess → List RegAccess
  returns : List BusEvent → BusAccess → List Reading → List (Nat × Nat)

/-- The register transactions, one after the other, with no core step between them, and what the reads among them
returned, after `got`. -/
def regAccesses : List RegAccess → State → List Reading → Host.Outcome (State × List Reading) Fault Refusal
  | [], s, got => .next (s, got)
  | a :: rest, s, got =>
    match takeMove a.move s with
    | .next t =>
      match a with
      | .read _ => regAccesses rest t (got ++ t.readData.toList)
      | .write _ _ => regAccesses rest t got
    | .fault f => .fault f
    | .refused r => .refused r

/-- One access on a bus bound by `b`, after the accesses `past`: the state after its transactions, the access as an event for
the ones to come, and the words it returns. -/
def busAccess (b : BusBinding) (past : List BusEvent) (a : BusAccess) (s : State) :
    Host.Outcome (State × BusEvent × List (Nat × Nat)) Fault Refusal :=
  match regAccesses (b.issues past a) s [] with
  | .next (t, got) => .next (t, ⟨a, got⟩, b.returns past a got)
  | .fault f => .fault f
  | .refused r => .refused r

/-! ### Plain maps of whole registers -/

/-- A piece of a register on the bus: `width` bits of it stand in the bus word at `addr`, from bit `lane` upward. -/
structure BusPiece where
  addr  : Nat
  lane  : Nat
  width : Nat
deriving DecidableEq, Repr

/-- A plain map: one shape of `REG_MAP` among all, in which every transaction is of one whole register.
`bound` gives each bound register its pieces, least-significant piece first, so that their addresses are the word order of a
128-bit register on a narrower bus (R35) and their lanes the place of a register in a wider bus word.
`filler` is what the bits of a bus word that no piece carries read as.
All of it is an argument; a binding of another shape is a `BusBinding` of its own (log entry 14). -/
structure RegMap where
  bound  : List (HostReg × List BusPiece)
  filler : Nat
deriving DecidableEq, Repr

/-- The pieces of every bound register make up its width, and no address serves two pieces
(MODEL'S CHOICE of what a plain map is, log entry 14). -/
def RegMap.wf (m : RegMap) : Bool :=
  m.bound.all (fun e => (e.2.map BusPiece.width).sum == e.1.width) &&
    decide (m.bound.flatMap (fun e => e.2.map BusPiece.addr)).Nodup

/-- A register's value out of the bus words at its pieces, least-significant piece first. -/
def joinPieces : List (BusPiece × Nat) → Nat
  | [] => 0
  | (p, w) :: rest => w / 2 ^ p.lane % 2 ^ p.width + 2 ^ p.width * joinPieces rest

/-- The bus word that carries `bits` at a piece's lane and the filler elsewhere. -/
def BusPiece.word (filler : Nat) (p : BusPiece) (bits : Nat) : Nat :=
  filler % 2 ^ p.lane + 2 ^ p.lane * (bits % 2 ^ p.width + 2 ^ p.width * (filler / 2 ^ (p.lane + p.width)))

/-- The bus words of a register's value at its pieces, least-significant piece first. -/
def splitPieces (filler : Nat) : List BusPiece → Nat → List Nat
  | [], _ => []
  | p :: rest, x => p.word filler x :: splitPieces filler rest (x / 2 ^ p.width)

/-- The register bound to exactly these addresses, in any order, with its pieces.
MODEL'S CHOICE of what a plain map is (log entry 14): a transaction of a register is an access to each of its pieces, and one
that leaves a piece out is no transaction. -/
def RegMap.bindingAt (m : RegMap) (addrs : List Nat) : Option (HostReg × List BusPiece) :=
  m.bound.find? fun e => (e.2.map BusPiece.addr).isPerm addrs

/-- The register transaction of an access under a plain map, if it is one; a write takes, for each piece, the bits at its
lane.
MODEL'S CHOICE of what a plain map is (log entry 14): the other bits of a written word have no effect. -/
def RegMap.transaction (m : RegMap) : BusAccess → Option RegAccess
  | .read addrs => (m.bindingAt addrs).map fun e => .read e.1
  | .write words => (m.bindingAt (words.map (·.1))).map fun e =>
      .write e.1 (BitVec.ofNat 128 (joinPieces (e.2.map fun p => (p, (words.lookup p.addr).getD 0))))

/-- The host action of reading these addresses under a plain map. -/
def busRead (m : RegMap) (addrs : List Nat) : Option Move := (m.transaction (.read addrs)).map RegAccess.move

/-- The host action of writing these words to these addresses under a plain map. -/
def busWrite (m : RegMap) (words : List (Nat × Nat)) : Option Move := (m.transaction (.write words)).map RegAccess.move

/-- The bus words, with their addresses, that a host read returns to these addresses under a plain map; none if they are not
the addresses of the register it read. -/
def busReturns (m : RegMap) (addrs : List Nat) (r : Reading) : Option (List (Nat × Nat)) :=
  match m.bindingAt addrs with
  | some (reg, ps) =>
    if reg = r.bits.1 then some ((ps.map BusPiece.addr).zip (splitPieces m.filler ps r.bits.2)) else none
  | none => none

/-- A plain map as a binding: it needs no record of the accesses made. -/
def RegMap.binding (m : RegMap) : BusBinding where
  issues _ a := (m.transaction a).toList
  returns _ a got :=
    match a, got with
    | .read addrs, [r] => (busReturns m addrs r).getD []
    | _, _ => []

end Sys2Proof.Machine
end

