-- ==== Sys2Proof/Machine/Cores.lean ====
section
/-! DEFINITION. A system of `INSTANCES` independent cores (00_scope.md rule R7, 60_exceptions.md rule R110; log entry 15). -/

namespace Sys2Proof.Machine

/-- A system right after reset of one core for each set of parameters, `INSTANCES` of them and so at least one (R7), each with
its own streams (R110): core `i`'s streams are numbered `i`, so no core's answers are tied to another's (log entry 20). -/
def resetCores (first : Config) (others : List Config) : List State :=
  (first :: others).zipIdx.map fun (c, i) =>
    { State.resetWith c with
      src := { taken := [], ahead := [], tail := .draws i 0 }
      snk := { held := [], ahead := [], tail := .draws i 0 } }

/-- One step of core `n` of a system; the cores share no state, so every other core stays as it is (R110).
MODEL'S CHOICE (log entry 19): where core `n`'s step faults or is refused, that is the outcome of the system's step.
The spec says only that a model faults on that access, and not what becomes of the other cores. -/
def stepOf (n : Nat) (cores : List State) : Host.Outcome (List State) Fault Refusal :=
  match cores[n]? with
  | none => .next cores
  | some s =>
    match step s with
    | .next t => .next (cores.set n t)
    | .fault f => .fault f
    | .refused r => .refused r

end Sys2Proof.Machine
end

