-- ==== Sys2Proof/Machine/Program.lean ====
section
/-! DEFINITION. The toolchain syntax at its boundary (30_encoding.md rules R62 to R67): the host syntax of programs with its
expansion into agenda actions, and what the front end and the read-eval-print loop hand to the core.
Text formats are outside the hardware (00_scope.md rule R6; log entry 16). -/

namespace Sys2Proof.Machine

/-- One line of a host program (R67); the last four are the pseudo-instructions. -/
inductive HostLine where
  | value (literal : Int)
  | cmd (w : Byte)
  | wait
  | readStatus
  | readResult
  | encU (literal : Int)
  | encS (literal : Int)
  | decU
  | decS
deriving DecidableEq, Repr

/-- A literal stands for a 128-bit pattern: decimal or hex up to 2^128 − 1, or a negative decimal down to −2^127 (R4, R67). -/
def literalWf (x : Int) : Bool := decide (-(2 ^ 127) ≤ x) && decide (x < 2 ^ 128)

/-- A line is well formed when its literal, if it has one, is. -/
def HostLine.wf : HostLine → Bool
  | .value x => literalWf x
  | .encU x => literalWf x
  | .encS x => literalWf x
  | .cmd _ => true
  | .wait => true
  | .readStatus => true
  | .readResult => true
  | .decU => true
  | .decS => true

/-- The pattern a literal writes: "a negative decimal stands for its 128-bit two's-complement pattern" (R67). -/
def literalWord (x : Int) : Word := BitVec.ofInt 128 x

/-- The host actions of a line, each pseudo-instruction with its expansion (R67). -/
def HostLine.expand : HostLine → List Move
  | .value x => [.writeValue (literalWord x)]
  | .cmd w => [.writeCmd w]
  | .wait => [.wait]
  | .readStatus => [.readStatus]
  | .readResult => [.readResult]
  | .encU x => [.writeValue (literalWord x), .writeCmd 0x80, .wait]
  | .encS x => [.writeValue (literalWord x), .writeCmd 0x81, .wait]
  | .decU => [.writeCmd 0x82, .wait]
  | .decS => [.writeCmd 0x83, .wait]

/-- A host program as an agenda: its lines, one after the other. -/
def expandLines (ls : List HostLine) : List Move := ls.flatMap HostLine.expand

/-- A front-end invocation: one verb and one argument (R62). -/
inductive FrontEndCall where
  | encodeUnsigned (literal : Int)
  | encodeSigned (literal : Int)
  | decodeUnsigned (bytes : List Byte)
  | decodeSigned (bytes : List Byte)
deriving DecidableEq, Repr

/-- The one command a verb calls (R62). -/
def FrontEndCall.command : FrontEndCall → Instr
  | .encodeUnsigned _ => .encU
  | .encodeSigned _ => .encS
  | .decodeUnsigned _ => .decU
  | .decodeSigned _ => .decS

/-- The argument parses (R63): a literal carries a leading `-` only for `encode-signed`.
MODEL'S CHOICE (log entry 16): a literal outside the command's 128-bit range (R4) does not parse either; whether it does is
open (N12).
The bytes of a decode verb are bytes already (R64). -/
def FrontEndCall.wf : FrontEndCall → Bool
  | .encodeUnsigned x => decide (0 ≤ x) && decide (x < 2 ^ 128)
  | .encodeSigned x => decide (-(2 ^ 127) ≤ x) && decide (x < 2 ^ 127)
  | .decodeUnsigned _ => true
  | .decodeSigned _ => true

/-- What the front end hands to the core: the literal as `VALUE` (R63), or the bytes as the content of a reference source
(R64), and then the verb's command.
None for an argument that does not parse: "a fatal, immediately-reported condition for that single invocation" (R63). -/
def FrontEndCall.moves (c : FrontEndCall) : Option (List Move) :=
  if c.wf then
    match c with
    | .encodeUnsigned x => some (HostLine.expand (.encU x))
    | .encodeSigned x => some (HostLine.expand (.encS x))
    | .decodeUnsigned bs => some (.connectSource (Source.reference bs 0) :: HostLine.expand .decU)
    | .decodeSigned bs => some (.connectSource (Source.reference bs 0) :: HostLine.expand .decS)
  else none

/-- A line of the read-eval-print loop that parsed as a 64-bit unsigned integer, a signed one, or both, each widened to
`VALUE` so that it keeps its value, and encoded with `ENC_U` or `ENC_S` (R66).
Which of the two comes first on a line that parses as both is open (N13), so it is an argument (log entry 16). -/
def replMoves (unsignedFirst : Bool) (unsigned signed : Option (BitVec 64)) : List Move :=
  let u := match unsigned with
    | some x => [.writeValue (x.setWidth 128), .writeCmd 0x80, .wait]
    | none => []
  let i := match signed with
    | some x => [.writeValue (x.signExtend 128), .writeCmd 0x81, .wait]
    | none => []
  if unsignedFirst then u ++ i else i ++ u

end Sys2Proof.Machine
end

