-- ==== Sys2Proof/Machine/Format.lean ====
section
/-! DEFINITION. The LEB128 byte format itself (30_encoding.md rules R48 to R56), written from its rules and not from the
algorithms, for statements to compare the commands with. -/

namespace Sys2Proof.Machine

/-- An encoding (R48): every byte but the last has bit 7 set, the last, terminal byte has it clear. -/
def isEncoding : List Byte → Bool
  | [] => false
  | b :: rest => if rest.isEmpty then !contBit b else contBit b && isEncoding rest

/-- Σ g[i] × 2^(7i), the unsigned value the groups denote (R49). -/
def unsignedValue : List Byte → Nat
  | [] => 0
  | b :: rest => b.toNat % 128 + 128 * unsignedValue rest

/-- The groups' sum sign-extended from bit 7n − 1, which is bit 6 of the last byte (R49, R52). -/
def signedValue (e : List Byte) : Int :=
  if (e.getLast?.map signBit).getD false then (unsignedValue e : Int) - 2 ^ (7 * e.length) else unsignedValue e

/-- `bit_length(v)`: the position of the highest 1 bit plus one, and 0 for v = 0 (R54). -/
def bitLength (x : Word) : Nat := if x.toNat = 0 then 0 else x.toNat.log2 + 1

/-- The length of `ENC_U(v)`: `max(1, ceil(bit_length(v) / 7))` (R54). -/
def unsignedLength (x : Word) : Nat := max 1 ((bitLength x + 6) / 7)

/-- −2^(7n−1) ≤ v ≤ 2^(7n−1) − 1 (R55). -/
def fitsSigned (x : Word) (n : Nat) : Bool :=
  decide (-(2 ^ (7 * n - 1) : Int) ≤ x.toInt) && decide (x.toInt ≤ 2 ^ (7 * n - 1) - 1)

/-- The length of `ENC_S(v)`: the smallest n ≥ 1 with −2^(7n−1) ≤ v ≤ 2^(7n−1) − 1 (R55), at most 19 (R56). -/
def signedLength (x : Word) : Nat := ((List.range' 1 18).find? (fitsSigned x)).getD Config.maxLen

/-- One byte of an encoding: a 7-bit group, and bit 7 set when more groups follow (R48). -/
def formatByte (group : Nat) (more : Bool) : Byte := BitVec.ofNat 8 (group + if more then 128 else 0)

/-- The minimal unsigned encoding of v: byte i holds the group of weight 128^i (R34, R48, R54). -/
def unsignedEncoding (x : Word) : List Byte :=
  (List.range (unsignedLength x)).map fun i => formatByte (x.toNat / 128 ^ i % 128) (i + 1 < unsignedLength x)

/-- The minimal signed encoding of v: byte i holds the group of weight 128^i of its two's complement (R34, R48, R53). -/
def signedEncoding (x : Word) : List Byte :=
  (List.range (signedLength x)).map fun i => formatByte (x.toInt / 128 ^ i % 128).toNat (i + 1 < signedLength x)

/-- The encoding an encode command writes for `VALUE` = `x`; a decode command writes none. -/
def encodingOf : Instr → Word → List Byte
  | .encU, x => unsignedEncoding x
  | .encS, x => signedEncoding x
  | .decU, _ => []
  | .decS, _ => []

/-- The permitted set of a decode command (R85); an encode command has none. -/
def permitOf : Instr → BoundarySet → List Byte
  | .decU, p => permitU p
  | .decS, p => permitS p
  | .encU, _ => []
  | .encS, _ => []

/-- The 128-bit pattern a decode command returns for an encoding: the unsigned value, or the signed value's two's
complement (R49, R52, R81). -/
def decodedWord : Instr → List Byte → Word
  | .decU, e => BitVec.ofNat 128 (unsignedValue e)
  | .decS, e => BitVec.ofInt 128 (signedValue e)
  | .encU, _ => 0
  | .encS, _ => 0

/-- What a decoder accepts (R61): an encoding of at most 19 bytes whose 19th byte, if any, is permitted (R85). -/
def accepted (permit : List Byte) (e : List Byte) : Bool :=
  isEncoding e && (match e[18]? with
    | none => true
    | some b => permit.contains b)

/-- What a decoder overflows on (R61): a 19th byte that is not permitted, with the bytes drained after it up to the first
one with bit 7 clear (R86, R90). -/
def overflows (permit : List Byte) (e : List Byte) : Bool :=
  isEncoding e && (match e[18]? with
    | none => false
    | some b => !permit.contains b)

/-- The sink after it has accepted these bytes one by one at once; none if it fails or withholds an answer before that. -/
def Sink.acceptAll (k : Sink) : List Byte → Option Sink
  | [] => some k
  | b :: rest =>
    match k.write b with
    | (some .ok, k') => k'.acceptAll rest
    | _ => none

/-- The source after it has supplied exactly these bytes, one by one at once; none if it does anything else before that. -/
def Source.supplyAll (q : Source) : List Byte → Option Source
  | [] => some q
  | b :: rest =>
    match q.read with
    | (some (.byte b'), q') => if b' = b then q'.supplyAll rest else none
    | _ => none

end Sys2Proof.Machine
end

