-- ==== Sys2Proof/Safety.lean ====
section
/-! DEFINITION. How a run is read, what a safe run is, and the invariant of the machine. -/

namespace Sys2Proof.Machine

/-- The next state of an outcome, if it has one. -/
def nextOf (o : Host.Outcome State Fault Refusal) : Option State :=
  match o with
  | .next s => some s
  | _ => none

/-- The fault of an outcome, if it is one. -/
def faultOf (o : Host.Outcome State Fault Refusal) : Option Fault :=
  match o with
  | .fault f => some f
  | _ => none

/-- The refusal of an outcome, if it is one. -/
def refusalOf (o : Host.Outcome State Fault Refusal) : Option Refusal :=
  match o with
  | .refused r => some r
  | _ => none

/-- `n` steps from `s` reach `t` without a fault or a refusal. -/
def Reaches (n : Nat) (s t : State) : Prop := Sys2Proof.core.run n s = .next t

/-- `n` steps from `s` are a safe run: no fault, no refused action, and the refusal mark clear at the end
(R59, R120: nothing is claimed of a program that sets it). -/
def SafeRun (n : Nat) (s : State) : Prop := ∃ t, Reaches n s t ∧ t.refusalMark = false

/-- `IDLE`, with the host about to start command `i` and nothing after it on the agenda. -/
def State.starting (i : Instr) (s : State) : Prop := s.phase = .idle ∧ s.agenda = [.writeCmd (encode i)]

/-- What the spec gives an ending (R25, R26, R28), written out: the outcome in `STATUS`, `RESULT`, `IDLE`, and no value in
the datapath but `OP`, which keeps its value (log entry 7). -/
def State.outcome (code : Code) (kind : BitVec 2) (result : Option Word) (s : State) : State :=
  { s with
    phase := .idle, code := code, ioKind := kind, result := result,
    v := none, done := none, count := none, acc := none, shift := none, b := none }

/-- The state after a whole run of command `i` started by `State.starting`: its outcome, its `OP` latched and shown, and an
empty agenda.
That `OP` still holds the command is the model's reading (log entry 7). -/
def State.endedAs (i : Instr) (code : Code) (kind : BitVec 2) (result : Option Word) (s : State) : State :=
  { s.outcome code kind result with op := some i.op, lastOp := i.op, agenda := [] }

/-- Between commands (R28): no datapath register but `OP` holds a value; `OP` keeps the last command until reset, which is the
model's reading (log entry 7).
The `STATUS` fields and `RESULT` agree with the outcome (R19 to R21, R97): `RESULT` holds a value just after `OK`,
`IO_KIND` is 0 unless the outcome is `IO_ERROR`, and then it is a kind the command's stream gives; only a decode overflows;
an encoder's `RESULT` is 1 to 19. -/
def State.idleInv (s : State) : Prop :=
  s.v = none ∧ s.done = none ∧ s.count = none ∧ s.acc = none ∧ s.shift = none ∧ s.b = none ∧
  (s.code = .ok ↔ s.result ≠ none) ∧
  (s.code = .noOutcome → s.op = none ∧ s.lastOp = 0) ∧
  (s.code ≠ .noOutcome → s.op = some s.lastOp) ∧
  (s.code ≠ .ioError → s.ioKind = 0) ∧
  (s.code = .ioError → s.lastOp.getLsbD 1 = false → s.ioKind = 1 ∨ s.ioKind = 2) ∧
  (s.code = .ioError → s.lastOp.getLsbD 1 = true → s.ioKind = 0 ∨ s.ioKind = 2) ∧
  (s.code = .overflow → s.lastOp.getLsbD 1 = true) ∧
  (s.lastOp.getLsbD 1 = false → ∀ d, s.result = some d → 1 ≤ d.toNat ∧ d.toNat ≤ 19)

/-- While a command runs (R19, R21, R23): its `OP` is latched and shown, and no outcome or result stands. -/
def State.busyInv (s : State) : Prop :=
  s.op = some s.lastOp ∧ s.code = .noOutcome ∧ s.ioKind = 0 ∧ s.result = none

/-- An encode in `RUN` after `c` bytes: the remaining value fits what is left of 128 bits (R71, R74), so `COUNT` never
passes 18 before a request (R56). -/
def State.encodeInv (s : State) : Prop :=
  s.acc = none ∧ s.shift = none ∧ s.b = none ∧
  ∃ x c, s.v = some x ∧ s.count = some c ∧ c.toNat ≤ 18 ∧
    ((s.op = some Instr.encU.op ∧ s.done = none ∧ x.toNat < 2 ^ (128 - 7 * c.toNat)) ∨
     (s.op = some Instr.encS.op ∧ s.done = (if c = 0 then none else some false) ∧
      -(2 ^ (127 - 7 * c.toNat) : Int) ≤ x.toInt ∧ x.toInt < 2 ^ (127 - 7 * c.toNat)))

/-- A decode in `RUN` after `j` bytes: `SHIFT` = 7j ≤ 126 (R79), `ACC` holds only bits below it, and the last byte read
had bit 7 set. -/
def State.decodeInv (s : State) : Prop :=
  (s.op = some Instr.decU.op ∨ s.op = some Instr.decS.op) ∧ s.v = none ∧ s.done = none ∧ s.count = none ∧
  ∃ a sh j, s.acc = some a ∧ s.shift = some sh ∧ j ≤ 18 ∧ sh.toNat = 7 * j ∧ a.toNat < 2 ^ (7 * j) ∧
    (j = 0 → s.b = none) ∧ (0 < j → ∃ b, s.b = some b ∧ contBit b = true)

/-- A decode in `DRAIN`: the guard failed at shift 126, and the last byte read had bit 7 set (R84, R86). -/
def State.drainInv (s : State) : Prop :=
  (s.op = some Instr.decU.op ∨ s.op = some Instr.decS.op) ∧ s.v = none ∧ s.done = none ∧ s.count = none ∧
  (∃ a, s.acc = some a ∧ a.toNat < 2 ^ 126) ∧ s.shift = some Config.boundary ∧ ∃ b, s.b = some b ∧ contBit b = true

/-- The invariant of the machine: what holds in each `PHASE` (R14, R19 to R23, R28, R56, R79). -/
def State.Inv (s : State) : Prop :=
  match s.phase with
  | .idle => s.idleInv
  | .run => s.busyInv ∧ (s.encodeInv ∨ s.decodeInv)
  | .drain => s.busyInv ∧ s.drainInv

end Sys2Proof.Machine
end

