-- ==== Sys2Proof/Certificates/Slice0/Obligations.lean ====
section
/-! DEFINITION. The statements for the provers.
Each docstring names the rules of spec/ it formalises. -/

open Sys2Proof Sys2Proof.Machine

/-! ### Encodings of the command word -/

/-- R16, R58: decoding the command word of a command gives the command back. -/
def Obligations.DecodeOfEncode : Prop :=
  ∀ i : Instr, i.wf = true → decode (encode i) = .ok i

/-- R58: a word with `START` = 1 and the reserved bits 0 is the command of its bits 1:0, by the table's four words. -/
def Obligations.CommandWordsDecode : Prop :=
  (decode 0b10000000 = .ok .encU ∧ decode 0b10000001 = .ok .encS ∧
    decode 0b10000010 = .ok .decU ∧ decode 0b10000011 = .ok .decS) ∧
  ∀ (w : Byte) (i : Instr), decode w = .ok i → w.getLsbD 7 = true ∧ w.extractLsb' 2 5 = 0 ∧ w = encode i

/-! ### Which step runs what -/

/-- R14, R23, R58: a step whose next action writes a command word while the core is idle is the command's step. -/
def Obligations.StepRunsWrittenCommand : Prop :=
  ∀ (s : State) (w : Byte) (i : Instr) (rest : List Move),
    s.phase = .idle → s.agenda = .writeCmd w :: rest → decode w = .ok i →
    step s = exec i { s with agenda := rest }

/-- R14, R22: while a command runs, the core's turn is the next step of the latched command; on an idle core a turn changes
nothing.
When the core has its turn is the model's choice: on an empty agenda and on an explicit turn (log entry 4), and under a
waiting host, where one poll of `STATUS` and one turn of the core make one step and the `wait` of R67 stays on the agenda
until a poll finds `BUSY` = 0 (log entry 12; R67 gives no poll rate). -/
def Obligations.StepRunsLatchedCommand : Prop :=
  (∀ (s : State) (o : BitVec 2), s.phase ≠ .idle → s.op = some o →
    (s.agenda = [] → step s = exec (instrOfOp o) s) ∧
    (∀ rest, s.agenda = .coreStep :: rest → step s = exec (instrOfOp o) { s with agenda := rest }) ∧
    (∀ rest, s.agenda = .wait :: rest →
      step s = exec (instrOfOp o) { s with readData := some (.status s.status) })) ∧
  (∀ s : State, s.phase = .idle →
    (s.agenda = [] → step s = .next s) ∧
    (∀ rest, s.agenda = .coreStep :: rest → step s = .next { s with agenda := rest }) ∧
    (∀ rest, s.agenda = .wait :: rest →
      step s = .next { s with agenda := rest, readData := some (.status s.status) }))

/-- R46, R58: the model's placing of a command word (log entry 17) makes the very next step run that command. -/
def Obligations.PlacedWordRunsNext : Prop :=
  ∀ (s : State) (w : Nat) (i : Instr), s.phase = .idle → decodeTableWord 8 w = some i →
    step (s.withFetchWord 8 w) = exec i s

/-- R59: `START` = 0 has no effect whatever the other bits; `START` = 1 with a reserved bit set is refused and sets the
refusal mark; every other word is one of the four commands. -/
def Obligations.CmdWritesThatStartNothing : Prop :=
  ∀ (s : State) (w : Byte) (rest : List Move), s.agenda = .writeCmd w :: rest →
    (w.getLsbD 7 = false → step s = .next { s with agenda := rest }) ∧
    (w.getLsbD 7 = true → w.extractLsb' 2 5 ≠ 0 →
      step s = .next { s with agenda := rest, refusalMark := true }) ∧
    (w.getLsbD 7 = true → w.extractLsb' 2 5 = 0 →
      w = encode .encU ∨ w = encode .encS ∨ w = encode .decU ∨ w = encode .decS)

/-- R120: `START` while `BUSY` is refused: the running command goes on unchanged and the mark is set; and no run of a
program that does this is a safe run. -/
def Obligations.StartWhileBusyRefused : Prop :=
  ∀ (s : State) (w : Byte) (rest : List Move),
    s.phase ≠ .idle → s.agenda = .writeCmd w :: rest → w.getLsbD 7 = true →
    step s = .next { s with agenda := rest, refusalMark := true } ∧ ∀ n, ¬ SafeRun (n + 1) s

/-- R23: the start of each command, in one step, with the other datapath registers holding no value
(that clause is the model's, log entry 18). -/
def Obligations.StartInitialisesCommand : Prop :=
  ∀ (s : State) (i : Instr) (rest : List Move),
    s.phase = .idle → s.agenda = .writeCmd (encode i) :: rest →
    (∀ x, (i = .encU ∨ i = .encS) → s.value = some x →
      step s = .next { s with
        agenda := rest, phase := .run, op := some i.op, lastOp := i.op, code := .noOutcome, ioKind := 0, result := none,
        v := some x, count := some 0, done := none, acc := none, shift := none, b := none }) ∧
    ((i = .decU ∨ i = .decS) →
      step s = .next { s with
        agenda := rest, phase := .run, op := some i.op, lastOp := i.op, code := .noOutcome, ioKind := 0, result := none,
        acc := some 0, shift := some 0, v := none, count := none, done := none, b := none })

/-- R31, R117: an encode started, or `VALUE` read, while `VALUE` holds no value faults. -/
def Obligations.ValueWithoutValueFaults : Prop :=
  ∀ s : State, s.value = none →
    (s.phase = .idle → exec .encU s = .fault .valueHoldsNoValue ∧ exec .encS s = .fault .valueHoldsNoValue) ∧
    (∀ rest, s.agenda = .readValue :: rest → step s = .fault .valueHoldsNoValue)

/-! ### One request step of each command -/

/-- R70: one iteration of `ENC_U`'s loop on the remaining value, in arithmetic: the byte offered, and what follows for each
answer of the sink.
That a turn without an answer is a step of its own is the model's choice (log entry 21); R112 gives what it leaves. -/
def Obligations.EncodeUnsignedRequest : Prop :=
  ∀ (s : State) (x : Word) (c : BitVec 5) (byte : Byte),
    s.phase = .run → s.v = some x → s.count = some c →
    byte = BitVec.ofNat 8 (x.toNat % 128 + if 128 ≤ x.toNat then 128 else 0) →
    (∀ k, s.snk.write byte = (none, k) → exec .encU s = .next { s with snk := k }) ∧
    (∀ k, s.snk.write byte = (some (.fail .refused), k) →
      exec .encU s = .next { s.outcome .ioError 1 none with snk := k }) ∧
    (∀ k, s.snk.write byte = (some (.fail .other), k) →
      exec .encU s = .next { s.outcome .ioError 2 none with snk := k }) ∧
    (∀ k, s.snk.write byte = (some .ok, k) → 128 ≤ x.toNat →
      exec .encU s = .next { s with snk := k, v := some (BitVec.ofNat 128 (x.toNat / 128)), count := some (c + 1) }) ∧
    (∀ k, s.snk.write byte = (some .ok, k) → x.toNat < 128 →
      exec .encU s = .next { s.outcome .ok 0 (some ((c + 1).setWidth 128)) with snk := k })

/-- R73, R74: one iteration of `ENC_S`'s loop on the remaining value, in arithmetic: the group is the last exactly when
−64 ≤ `V` ≤ 63.
That a turn without an answer is a step of its own is the model's choice (log entry 21); R112 gives what it leaves. -/
def Obligations.EncodeSignedRequest : Prop :=
  ∀ (s : State) (x : Word) (c : BitVec 5) (byte : Byte),
    s.phase = .run → s.v = some x → s.count = some c →
    byte = BitVec.ofNat 8 ((x.toInt % 128).toNat + if -64 ≤ x.toInt ∧ x.toInt ≤ 63 then 0 else 128) →
    (∀ k, s.snk.write byte = (none, k) → exec .encS s = .next { s with snk := k }) ∧
    (∀ k, s.snk.write byte = (some (.fail .refused), k) →
      exec .encS s = .next { s.outcome .ioError 1 none with snk := k }) ∧
    (∀ k, s.snk.write byte = (some (.fail .other), k) →
      exec .encS s = .next { s.outcome .ioError 2 none with snk := k }) ∧
    (∀ k, s.snk.write byte = (some .ok, k) → ¬ (-64 ≤ x.toInt ∧ x.toInt ≤ 63) →
      exec .encS s = .next { s with
        snk := k, v := some (BitVec.ofInt 128 (x.toInt / 128)), done := some false, count := some (c + 1) }) ∧
    (∀ k, s.snk.write byte = (some .ok, k) → -64 ≤ x.toInt → x.toInt ≤ 63 →
      exec .encS s = .next { s.outcome .ok 0 (some ((c + 1).setWidth 128)) with snk := k })

/-- R82, R85, R98: one iteration of `DEC_U`'s loop: the stream's answer first, then the guard at shift 126, then the terminal
test.
That a turn without an answer is a step of its own is the model's choice (log entry 21); R112 gives what it leaves. -/
def Obligations.DecodeUnsignedRequest : Prop :=
  ∀ (s : State) (a : Word) (sh : BitVec 8) (q : Source),
    s.phase = .run → s.acc = some a → s.shift = some sh →
    (s.src.read = (none, q) → exec .decU s = .next { s with src := q }) ∧
    (s.src.read = (some (.fail .eof), q) → exec .decU s = .next { s.outcome .ioError 0 none with src := q }) ∧
    (s.src.read = (some (.fail .other), q) → exec .decU s = .next { s.outcome .ioError 2 none with src := q }) ∧
    (∀ b, s.src.read = (some (.byte b), q) →
      (sh = 126 ∧ b ∉ permitU s.config.boundarySet →
        (b.toNat < 128 → exec .decU s = .next { s.outcome .overflow 0 none with src := q }) ∧
        (128 ≤ b.toNat → exec .decU s = .next { s with src := q, b := some b, phase := .drain })) ∧
      (¬ (sh = 126 ∧ b ∉ permitU s.config.boundarySet) →
        (b.toNat < 128 → exec .decU s = .next { s.outcome .ok 0
          (some (a ||| BitVec.ofNat 128 (b.toNat * 2 ^ sh.toNat))) with src := q }) ∧
        (128 ≤ b.toNat → exec .decU s = .next { s with
          src := q, b := some b, acc := some (a ||| BitVec.ofNat 128 ((b.toNat - 128) * 2 ^ sh.toNat)),
          shift := some (sh + 7) })))

/-- R87, R88, R89, R98: one iteration of `DEC_S`'s loop: as `DEC_U`'s, with `SHIFT` counting the terminal byte too and the
sign extension from `SHIFT` upward when `SHIFT` < 128 and bit 6 of the terminal byte is 1.
That a turn without an answer is a step of its own is the model's choice (log entry 21); R112 gives what it leaves. -/
def Obligations.DecodeSignedRequest : Prop :=
  ∀ (s : State) (a : Word) (sh : BitVec 8) (q : Source),
    s.phase = .run → s.acc = some a → s.shift = some sh →
    (s.src.read = (none, q) → exec .decS s = .next { s with src := q }) ∧
    (s.src.read = (some (.fail .eof), q) → exec .decS s = .next { s.outcome .ioError 0 none with src := q }) ∧
    (s.src.read = (some (.fail .other), q) → exec .decS s = .next { s.outcome .ioError 2 none with src := q }) ∧
    (∀ b, s.src.read = (some (.byte b), q) →
      (sh = 126 ∧ b ∉ permitS s.config.boundarySet →
        (b.toNat < 128 → exec .decS s = .next { s.outcome .overflow 0 none with src := q }) ∧
        (128 ≤ b.toNat → exec .decS s = .next { s with src := q, b := some b, phase := .drain })) ∧
      (¬ (sh = 126 ∧ b ∉ permitS s.config.boundarySet) →
        (b.toNat < 128 → exec .decS s = .next { s.outcome .ok 0
          (some (a ||| BitVec.ofNat 128 (b.toNat * 2 ^ sh.toNat) |||
            (if (sh + 7).toNat < 128 ∧ 64 ≤ b.toNat then BitVec.allOnes 128 <<< (sh + 7).toNat else 0)))
          with src := q }) ∧
        (128 ≤ b.toNat → exec .decS s = .next { s with
          src := q, b := some b, acc := some (a ||| BitVec.ofNat 128 ((b.toNat - 128) * 2 ^ sh.toNat)),
          shift := some (sh + 7) })))

/-- R86, R91, R99: one step of the drain, the same for both decoders: drained bytes are discarded, the terminal byte raises
`Overflow`, a failure raises `IoError`.
That a turn without an answer is a step of its own is the model's choice (log entry 21); R112 gives what it leaves. -/
def Obligations.DrainRequest : Prop :=
  ∀ (s : State) (i : Instr) (last : Byte) (q : Source),
    i = .decU ∨ i = .decS → s.phase = .drain → s.b = some last → 128 ≤ last.toNat →
    (s.src.read = (none, q) → exec i s = .next { s with src := q }) ∧
    (s.src.read = (some (.fail .eof), q) → exec i s = .next { s.outcome .ioError 0 none with src := q }) ∧
    (s.src.read = (some (.fail .other), q) → exec i s = .next { s.outcome .ioError 2 none with src := q }) ∧
    (∀ b, s.src.read = (some (.byte b), q) → 128 ≤ b.toNat →
      exec i s = .next { s with src := q, b := some b }) ∧
    (∀ b, s.src.read = (some (.byte b), q) → b.toNat < 128 →
      exec i s = .next { s.outcome .overflow 0 none with src := q })

/-! ### Frames and whole-machine rules -/

/-- R17, R33, R38: what a step of any command leaves alone.
An encoder never touches the source and asks the sink for at most the one byte of its remaining value; a decoder never
touches the sink and makes at most one request of the source; none touches `VALUE`, the refusal mark, the parameters, the
agenda or the host's last read, and `OP` and `STATUS.LAST_OP` change only at a start.
In `DRAIN` the one request is made exactly when the last byte has bit 7 set (R86).
That `OP` keeps its value at an ending is the model's reading (log entry 7), and so are the clauses that give a register no
value at a start (log entry 18). -/
def Obligations.CommandStepFrame : Prop :=
  ∀ (i : Instr) (s t : State), exec i s = .next t →
    t.value = s.value ∧ t.refusalMark = s.refusalMark ∧ t.config = s.config ∧ t.agenda = s.agenda ∧
    t.readData = s.readData ∧
    (s.phase ≠ .idle → t.op = s.op ∧ t.lastOp = s.lastOp) ∧
    (s.phase = .idle → t.src = s.src ∧ t.snk = s.snk) ∧
    ((i = .encU ∨ i = .encS) → t.src = s.src) ∧
    ((i = .decU ∨ i = .decS) → t.snk = s.snk) ∧
    (∀ x, i = .encU → s.phase = .run → s.v = some x → t.snk = (s.snk.write (unsignedByte x)).2) ∧
    (∀ x, i = .encS → s.phase = .run → s.v = some x → t.snk = (s.snk.write (signedByte x)).2) ∧
    (i = .encU → t.phase ≠ .idle →
      t.acc = (if s.phase = .idle then none else s.acc) ∧ t.shift = (if s.phase = .idle then none else s.shift) ∧
      t.b = (if s.phase = .idle then none else s.b) ∧ t.done = (if s.phase = .idle then none else s.done)) ∧
    (i = .encS → t.phase ≠ .idle →
      t.acc = (if s.phase = .idle then none else s.acc) ∧ t.shift = (if s.phase = .idle then none else s.shift) ∧
      t.b = (if s.phase = .idle then none else s.b)) ∧
    ((i = .decU ∨ i = .decS) → s.phase = .run → t.src = s.src.read.2) ∧
    (∀ last, (i = .decU ∨ i = .decS) → s.phase = .drain → s.b = some last →
      (128 ≤ last.toNat → t.src = s.src.read.2) ∧ (last.toNat < 128 → t.src = s.src)) ∧
    ((i = .decU ∨ i = .decS) → t.phase ≠ .idle →
      t.v = (if s.phase = .idle then none else s.v) ∧ t.count = (if s.phase = .idle then none else s.count) ∧
      t.done = (if s.phase = .idle then none else s.done)) ∧
    (s.phase = .drain → t.phase ≠ .idle → t.acc = s.acc ∧ t.shift = s.shift)

/-- R36, R37, R38, R39: one request moves one byte or none: a supplied byte is consumed, an accepted byte is appended, and
any other answer, or none, moves nothing. -/
def Obligations.RequestMovesOneByteOrNone : Prop :=
  (∀ (q q' : Source) (b : Byte), q.read = (some (.byte b), q') → q'.taken = q.taken ++ [b]) ∧
  (∀ (q q' : Source) (f : SourceFail), q.read = (some (.fail f), q') → q'.taken = q.taken) ∧
  (∀ (q q' : Source), q.read = (none, q') → q'.taken = q.taken) ∧
  (∀ (k k' : Sink) (b : Byte), k.write b = (some .ok, k') → k'.held = k.held ++ [b]) ∧
  (∀ (k k' : Sink) (b : Byte) (f : SinkFail), k.write b = (some (.fail f), k') → k'.held = k.held) ∧
  (∀ (k k' : Sink) (b : Byte), k.write b = (none, k') → k'.held = k.held)

/-- R106: no step takes back a byte moved: unless the environment connects another stream, each stream's record only grows,
by at most one byte. -/
def Obligations.MovedBytesStayMoved : Prop :=
  ∀ s t : State, step s = .next t →
    ((∀ q rest, s.agenda ≠ .connectSource q :: rest) →
      t.src.taken = s.src.taken ∨ ∃ b, t.src.taken = s.src.taken ++ [b]) ∧
    ((∀ k rest, s.agenda ≠ .connectSink k :: rest) →
      t.snk.held = s.snk.held ∨ ∃ b, t.snk.held = s.snk.held ++ [b])

/-- R32, R59, R120: the refusal mark is never cleared, and only a `CMD` write with `START` = 1 that starts nothing sets it.
That reset leaves it set is the model's reading of "never cleared" (log entry 8). -/
def Obligations.RefusalMarkNeverCleared : Prop :=
  ∀ s t : State, step s = .next t →
    (s.refusalMark = true → t.refusalMark = true) ∧
    (s.refusalMark = false → t.refusalMark = true →
      ∃ w rest, s.agenda = .writeCmd w :: rest ∧ w.getLsbD 7 = true ∧
        (w.extractLsb' 2 5 ≠ 0 ∨ s.phase ≠ .idle))

/-- R17: "The core never writes `VALUE`": only the host's write and reset change it; and no step changes `BOUNDARY_SET`. -/
def Obligations.OnlyHostWritesValue : Prop :=
  ∀ s t : State, step s = .next t → t.config = s.config ∧
    (t.value = s.value ∨ (∃ x rest, s.agenda = .writeValue x :: rest ∧ t.value = some x) ∨
      (∃ m rest, s.agenda = .reset m :: rest ∧ t.value = none))

/-- R123: a write of `VALUE` while a command runs changes `VALUE` only, and the running command's steps do not depend on
`VALUE`. -/
def Obligations.ValueWriteDuringCommandHarmless : Prop :=
  ∀ s : State, s.phase ≠ .idle →
    (∀ x rest, s.agenda = .writeValue x :: rest → step s = .next { s with agenda := rest, value := some x }) ∧
    (∀ (i : Instr) (x : Option Word) (t : State), exec i s = .next t →
      exec i { s with value := x } = .next { t with value := x })

/-- R24: `STATUS.CODE`, `STATUS.IO_KIND` and `STATUS.LAST_OP` change only when a command starts and when it ends.
Reset, which R31 lets set them too, is the one other moment. -/
def Obligations.StatusChangesOnlyAtStartAndEnd : Prop :=
  ∀ s t : State, step s = .next t →
    (t.code ≠ s.code ∨ t.ioKind ≠ s.ioKind ∨ t.lastOp ≠ s.lastOp) →
    (s.phase = .idle ∧ t.phase = .run ∧ ∃ i rest, s.agenda = .writeCmd (encode i) :: rest ∧ t.lastOp = i.op) ∨
    (s.phase ≠ .idle ∧ t.phase = .idle ∧ t.code ≠ .noOutcome) ∨
    (∃ m rest, s.agenda = .reset m :: rest)

/-- R112, R113: nothing ends a command early except reset: a step after which no command runs is a reset, or the core's own
turn, in which the latched command ends itself with an outcome, its pending request (if it has one) answered.
So no other host action cancels a command, and none ends because its stream withholds an answer.
When the core has its turn, on an empty agenda, on an explicit turn and under a waiting host, is the model's choice
(log entries 4 and 12). -/
def Obligations.OnlyResetEndsEarly : Prop :=
  ∀ s t : State, s.phase ≠ .idle → step s = .next t → t.phase = .idle →
    (∃ moved rest, s.agenda = .reset moved :: rest) ∨
    (t.code ≠ .noOutcome ∧ ∃ o s', s.op = some o ∧ exec (instrOfOp o) s' = .next t ∧
      ((s.agenda = [] ∧ s' = s) ∨
        (∃ rest, s.agenda = .coreStep :: rest ∧ s' = { s with agenda := rest }) ∨
        (∃ rest, s.agenda = .wait :: rest ∧ s' = { s with readData := some (.status s.status) })) ∧
      (∀ x, o = 0b00 → s.v = some x → (s.snk.write (unsignedByte x)).1 ≠ none) ∧
      (∀ x, o = 0b01 → s.v = some x → (s.snk.write (signedByte x)).1 ≠ none) ∧
      (o = 0b10 ∨ o = 0b11 → s.phase = .run → s.src.read.1 ≠ none) ∧
      (∀ last, o = 0b10 ∨ o = 0b11 → s.phase = .drain → s.b = some last → 128 ≤ last.toNat → s.src.read.1 ≠ none))

/-- R43, R121: connecting a stream that the running command borrows is no move of the model; any other connect replaces the
stream and nothing else.
The refusal by name is the model's (log entry 11). -/
def Obligations.BorrowedStreamHasNoOtherUser : Prop :=
  ∀ s : State,
    (∀ q rest, s.agenda = .connectSource q :: rest →
      (s.phase ≠ .idle → s.op = some 0b10 ∨ s.op = some 0b11 → step s = .refused .streamBorrowed) ∧
      (s.phase = .idle ∨ s.op = some 0b00 ∨ s.op = some 0b01 → step s = .next { s with agenda := rest, src := q })) ∧
    (∀ k rest, s.agenda = .connectSink k :: rest →
      (s.phase ≠ .idle → s.op = some 0b00 ∨ s.op = some 0b01 → step s = .refused .streamBorrowed) ∧
      (s.phase = .idle ∨ s.op = some 0b10 ∨ s.op = some 0b11 → step s = .next { s with agenda := rest, snk := k }))

/-! ### Host registers -/

/-- R18: the fields of the `STATUS` byte. -/
def Obligations.StatusByteLayout : Prop :=
  ∀ s : State,
    (s.status.getLsbD 0 = true ↔ s.phase ≠ .idle) ∧
    s.status.extractLsb' 1 2 =
      (match s.code with
        | .noOutcome => 0#2
        | .ok => 1#2
        | .ioError => 2#2
        | .overflow => 3#2) ∧
    s.status.extractLsb' 3 2 = s.ioKind ∧ s.status.extractLsb' 5 2 = s.lastOp ∧ s.status.getLsbD 7 = false

/-- R15, R16, R18, R21, R24: a read hands over the register's value and changes nothing else, at any time; writes to
`STATUS` and `RESULT` are ignored; a write of `VALUE` changes only `VALUE`. -/
def Obligations.HostRegisterAccess : Prop :=
  ∀ (s : State) (rest : List Move),
    (s.agenda = .readCmd :: rest → step s = .next { s with agenda := rest, readData := some (.cmd 0) }) ∧
    (s.agenda = .readStatus :: rest →
      step s = .next { s with agenda := rest, readData := some (.status s.status) }) ∧
    (∀ x, s.agenda = .readValue :: rest → s.value = some x →
      step s = .next { s with agenda := rest, readData := some (.value x) }) ∧
    (∀ x, s.agenda = .readResult :: rest → s.result = some x →
      step s = .next { s with agenda := rest, readData := some (.result x) }) ∧
    (∀ w, s.agenda = .writeStatus w :: rest → step s = .next { s with agenda := rest }) ∧
    (∀ x, s.agenda = .writeResult x :: rest → step s = .next { s with agenda := rest }) ∧
    (∀ x, s.agenda = .writeValue x :: rest → step s = .next { s with agenda := rest, value := some x })

/-- R122: in every state that meets the invariant, a read of `RESULT` while `BUSY` = 1, or when `STATUS.CODE` is not `OK`,
faults. -/
def Obligations.ResultReadOutsideOkFaults : Prop :=
  ∀ (s : State) (rest : List Move), s.Inv → s.agenda = .readResult :: rest →
    s.phase ≠ .idle ∨ s.code ≠ .ok → step s = .fault .resultHoldsNoValue

/-! ### Reset -/

/-- R31: the core state after reset. -/
def Obligations.ResetValues : Prop :=
  State.reset.phase = .idle ∧ State.reset.code = .noOutcome ∧ State.reset.ioKind = 0 ∧ State.reset.lastOp = 0 ∧
  State.reset.status = 0x00 ∧ State.reset.value = none ∧ State.reset.result = none ∧ State.reset.op = none ∧
  State.reset.v = none ∧ State.reset.done = none ∧ State.reset.count = none ∧ State.reset.acc = none ∧
  State.reset.shift = none ∧ State.reset.b = none

/-- R114, R115, R116: reset at any time puts the core into the state of R31 and leaves the streams alone, but for a pending
request, of which both outcomes are admitted: not carried out, or carried out by its stream with the answer lost.
That a request may be pending between any two steps of a running command is the model's choice (log entry 9). -/
def Obligations.ResetAbandonsCommand : Prop :=
  ∀ (s : State) (moved : Bool) (rest : List Move), s.agenda = .reset moved :: rest →
    ∃ t, step s = .next t ∧ t.phase = .idle ∧ t.code = .noOutcome ∧ t.ioKind = 0 ∧ t.lastOp = 0 ∧ t.value = none ∧
      t.result = none ∧ t.op = none ∧ t.v = none ∧ t.done = none ∧ t.count = none ∧ t.acc = none ∧ t.shift = none ∧
      t.b = none ∧ t.agenda = rest ∧
      ((moved = false ∨ s.phase = .idle) → t.src = s.src ∧ t.snk = s.snk) ∧
      (moved = true → s.phase ≠ .idle → s.op = some 0b10 ∨ s.op = some 0b11 →
        t.src = s.src.read.2 ∧ t.snk = s.snk) ∧
      (∀ x, moved = true → s.phase ≠ .idle → s.op = some 0b00 → s.v = some x →
        t.src = s.src ∧ t.snk = (s.snk.write (unsignedByte x)).2) ∧
      (∀ x, moved = true → s.phase ≠ .idle → s.op = some 0b01 → s.v = some x →
        t.src = s.src ∧ t.snk = (s.snk.write (signedByte x)).2)

/-! ### Invariant -/

/-- The invariant holds after reset. -/
def Obligations.ResetMeetsInvariant : Prop := State.reset.Inv

/-- R19 to R23, R28, R56, R79, R84: every step from a state that meets the invariant gives one that meets it.
That `OP` still holds the latched command between commands is no rule of the spec: it is the model's reading
(log entry 7). -/
def Obligations.StepKeepsInvariant : Prop :=
  ∀ s t : State, s.Inv → step s = .next t → t.Inv

/-- R96, R97, R103, R105: in every state that meets the invariant, the core's turn neither faults nor is refused, and a turn
that ends the command reports exactly one of the outcomes the command can have, with `RESULT` holding a value exactly for
`OK`. -/
def Obligations.CoreTurnEndsInOneOutcome : Prop :=
  ∀ s : State, s.Inv → s.phase ≠ .idle → ∃ t, coreMove s = .next t ∧
    (t.phase ≠ .idle ∨
      (t.code = .ok ∧ t.ioKind = 0 ∧ t.result ≠ none) ∨
      (t.code = .ioError ∧ t.result = none) ∨
      (t.code = .overflow ∧ t.ioKind = 0 ∧ t.result = none ∧ (s.op = some 0b10 ∨ s.op = some 0b11)))

/-! ### The format -/

/-- R48, R51, R54, R56: the minimal unsigned encoding is an encoding of its value of 1 to 19 bytes, no encoding of the value
is shorter, and its length is the smallest n ≥ 1 with v < 2^(7n). -/
def Obligations.UnsignedEncodingIsMinimal : Prop :=
  ∀ x : Word,
    isEncoding (unsignedEncoding x) = true ∧ unsignedValue (unsignedEncoding x) = x.toNat ∧
    (unsignedEncoding x).length = max 1 ((bitLength x + 6) / 7) ∧
    1 ≤ (unsignedEncoding x).length ∧ (unsignedEncoding x).length ≤ 19 ∧
    (∀ e, isEncoding e = true → unsignedValue e = x.toNat → (unsignedEncoding x).length ≤ e.length) ∧
    (∀ n, 1 ≤ n → x.toNat < 2 ^ (7 * n) → (unsignedEncoding x).length ≤ n) ∧
    x.toNat < 2 ^ (7 * (unsignedEncoding x).length)

/-- R48, R52, R53, R55, R56, R74: the minimal signed encoding is an encoding of its value of 1 to 19 bytes, no encoding of
the value is shorter, and bit 6 of its last byte is the value's sign. -/
def Obligations.SignedEncodingIsMinimal : Prop :=
  ∀ x : Word,
    isEncoding (signedEncoding x) = true ∧ signedValue (signedEncoding x) = x.toInt ∧
    1 ≤ (signedEncoding x).length ∧ (signedEncoding x).length ≤ 19 ∧
    (∀ e, isEncoding e = true → signedValue e = x.toInt → (signedEncoding x).length ≤ e.length) ∧
    (∀ n, 1 ≤ n → -(2 ^ (7 * n - 1) : Int) ≤ x.toInt → x.toInt ≤ 2 ^ (7 * n - 1) - 1 →
      (signedEncoding x).length ≤ n) ∧
    ((signedEncoding x).getLast?.map (·.getLsbD 6)) = some x.msb

/-- R85: every permitted byte is terminal, and the default sets are the groups whose bits 6:2 are zero (unsigned) or whose
bits 6:1 are all equal (signed). -/
def Obligations.PermittedBytesAtBoundary : Prop :=
  (∀ (p : BoundarySet) (b : Byte), (b ∈ permitU p ∨ b ∈ permitS p) → b.getLsbD 7 = false) ∧
  (∀ b : Byte, b ∈ permitU .derived ↔ b.extractLsb' 2 6 = 0) ∧
  (∀ b : Byte, b ∈ permitS .derived ↔
    b.getLsbD 7 = false ∧ (b.extractLsb' 1 6 = 0 ∨ b.extractLsb' 1 6 = BitVec.allOnes 6)) ∧
  (∀ b : Byte, b ∈ permitU .literal ↔ b = 0x00 ∨ b = 0x01) ∧
  (∀ b : Byte, b ∈ permitS .literal ↔ b = 0x00 ∨ b = 0x7F)

/-- R80, R88: where the bits go: a group at shift s lands at bits s to s + 6 and what passes bit 127 is lost; the sign
extension sets every bit from the shift upward. -/
def Obligations.GroupAndSignBitsLand : Prop :=
  ∀ (a : Word) (b : Byte) (sh : BitVec 8) (n : Nat), n < 128 →
    (placeGroup a b sh).getLsbD n =
      (a.getLsbD n || (decide (sh.toNat ≤ n) && decide (n < sh.toNat + 7) && b.getLsbD (n - sh.toNat))) ∧
    (signExtendFrom a b sh).getLsbD n =
      (a.getLsbD n || (decide (sh.toNat < 128) && b.getLsbD 6 && decide (sh.toNat ≤ n)))

/-- R47: the reference streams, request by request. -/
def Obligations.ReferenceStreams : Prop :=
  (∀ (bs : List Byte) (i : Nat) (h : i < bs.length),
    (Source.reference bs i).read = (some (.byte bs[i]), Source.reference bs (i + 1))) ∧
  (∀ (bs : List Byte) (i : Nat), bs.length ≤ i →
    (Source.reference bs i).read = (some (.fail .eof), Source.reference bs i)) ∧
  (∀ (held : List Byte) (cap : Nat) (b : Byte), held.length < cap →
    (Sink.reference held (some cap)).write b = (some .ok, Sink.reference (held ++ [b]) (some cap))) ∧
  (∀ (held : List Byte) (cap : Nat) (b : Byte), cap ≤ held.length →
    (Sink.reference held (some cap)).write b = (some (.fail .refused), Sink.reference held (some cap))) ∧
  (∀ (held : List Byte) (b : Byte),
    (Sink.reference held none).write b = (some .ok, Sink.reference (held ++ [b]) none))

/-! ### Whole commands -/

/-- R70, R71, R76, R124: `ENC_U` from its `CMD` write to its ending: on any sink that accepts the bytes, 1 + n steps write
the n bytes of the minimal encoding after what the sink held, and `RESULT` is n. -/
def Obligations.EncodeUnsignedWritesEncoding : Prop :=
  ∀ (s : State) (x : Word) (k : Sink),
    s.starting .encU → s.value = some x → s.snk.acceptAll (unsignedEncoding x) = some k →
    Reaches (1 + (unsignedEncoding x).length) s
      { s.endedAs .encU .ok 0 (some (BitVec.ofNat 128 (unsignedEncoding x).length)) with snk := k } ∧
    k.held = s.snk.held ++ unsignedEncoding x

/-- R73, R74, R76, R124: `ENC_S` from its `CMD` write to its ending. -/
def Obligations.EncodeSignedWritesEncoding : Prop :=
  ∀ (s : State) (x : Word) (k : Sink),
    s.starting .encS → s.value = some x → s.snk.acceptAll (signedEncoding x) = some k →
    Reaches (1 + (signedEncoding x).length) s
      { s.endedAs .encS .ok 0 (some (BitVec.ofNat 128 (signedEncoding x).length)) with snk := k } ∧
    k.held = s.snk.held ++ signedEncoding x

/-- R71, R74: inside the loops: after j bytes, fewer than the encoding's length, the remaining value is `VALUE` shifted right
by 7j (logically, or arithmetically), `COUNT` is j, and the sink has accepted the first j bytes. -/
def Obligations.EncodeLoopState : Prop :=
  ∀ (s : State) (i : Instr) (x : Word) (k : Sink) (j : Nat),
    i = .encU ∨ i = .encS → s.starting i → s.value = some x → j < (encodingOf i x).length →
    s.snk.acceptAll ((encodingOf i x).take j) = some k →
    ∃ t, Reaches (1 + j) s t ∧ t.phase = .run ∧ t.snk = k ∧ t.count = some (BitVec.ofNat 5 j) ∧
      t.v = some (match i with
        | .encS => x.sshiftRight (7 * j)
        | _ => x >>> (7 * j))

/-- R72, R75: if the sink fails on a byte, it holds exactly the bytes before it, the outcome is `IO_ERROR` with the sink's
kind, and `RESULT` holds no value. -/
def Obligations.EncodeSinkFailure : Prop :=
  ∀ (s : State) (i : Instr) (x : Word) (k k' : Sink) (f : SinkFail) (j : Nat) (h : j < (encodingOf i x).length),
    i = .encU ∨ i = .encS → s.starting i → s.value = some x →
    s.snk.acceptAll ((encodingOf i x).take j) = some k →
    k.write (encodingOf i x)[j] = (some (.fail f), k') →
    Reaches (2 + j) s { s.endedAs i .ioError (match f with
      | .refused => 1
      | .other => 2) none with snk := k' } ∧
    k'.held = s.snk.held ++ (encodingOf i x).take j

/-- R81, R83, R88, R90, R124: a decode of a legal encoding ends `OK` in 1 + n steps with the value the n bytes denote, and
has consumed exactly those bytes. -/
def Obligations.DecodeReturnsValue : Prop :=
  ∀ (s : State) (i : Instr) (e : List Byte) (q : Source),
    i = .decU ∨ i = .decS → s.starting i → accepted (permitOf i s.config.boundarySet) e = true →
    s.src.supplyAll e = some q →
    Reaches (1 + e.length) s { s.endedAs i .ok 0 (some (decodedWord i e)) with src := q } ∧
    q.taken = s.src.taken ++ e ∧ (i = .decU → unsignedValue e < 2 ^ 128)

/-- R61, R86, R90, R101, R103: a decode whose 19th byte is not permitted drains through the first byte with bit 7 clear and
ends `OVERFLOW`, having consumed exactly those bytes, with no value in `RESULT`. -/
def Obligations.DecodeOverflowDrains : Prop :=
  ∀ (s : State) (i : Instr) (e : List Byte) (q : Source),
    i = .decU ∨ i = .decS → s.starting i → overflows (permitOf i s.config.boundarySet) e = true →
    s.src.supplyAll e = some q →
    Reaches (1 + e.length) s { s.endedAs i .overflow 0 none with src := q } ∧ q.taken = s.src.taken ++ e

/-- R91, R99: if the source fails any request of a decode, in `RUN` or in `DRAIN`, the decode ends at once with `IO_ERROR`
and the source's kind; the bytes before stay consumed and `RESULT` holds no value. -/
def Obligations.DecodeSourceFailure : Prop :=
  ∀ (s : State) (i : Instr) (p : List Byte) (q q' : Source) (f : SourceFail),
    i = .decU ∨ i = .decS → s.starting i → (∀ b ∈ p, b.getLsbD 7 = true) →
    s.src.supplyAll p = some q → q.read = (some (.fail f), q') →
    Reaches (2 + p.length) s { s.endedAs i .ioError (match f with
      | .eof => 0
      | .other => 2) none with src := q' } ∧
    q'.taken = s.src.taken ++ p

/-- R79, R92: a decode does not end while its source keeps supplying bytes with bit 7 set, in `RUN` for up to 18 bytes at
`SHIFT` = 7 times their number and in `DRAIN` from the 19th on; and it does not end while the source withholds an
answer.
That the withheld answer makes a further step that leaves the same state, and so a hang and not a stuck run, is the model's
choice of the two forms R92 and U12 allow (log entry 21). -/
def Obligations.DecodeRunsOnContinuationBytes : Prop :=
  ∀ (s : State) (i : Instr) (p : List Byte) (q : Source),
    i = .decU ∨ i = .decS → s.starting i → (∀ b ∈ p, b.getLsbD 7 = true) → s.src.supplyAll p = some q →
    ∃ t, Reaches (1 + p.length) s t ∧ t.src = q ∧ t.code = .noOutcome ∧
      (p.length ≤ 18 → t.phase = .run ∧ t.shift = some (BitVec.ofNat 8 (7 * p.length))) ∧
      (19 ≤ p.length → t.phase = .drain) ∧
      (∀ q', q.read = (none, q') → Reaches (2 + p.length) s { t with src := q' })

/-- R93: under `DERIVED`, decoding the bytes the matching encoder wrote gives the original value and consumes exactly those
bytes. -/
def Obligations.RoundTripDerived : Prop :=
  ∀ (s d : State) (enc dec : Instr) (x : Word) (k : Sink) (q : Source) (n : Nat) (t : State),
    (enc = .encU ∧ dec = .decU ∨ enc = .encS ∧ dec = .decS) →
    s.starting enc → s.value = some x → s.snk.acceptAll (encodingOf enc x) = some k →
    n = 1 + (encodingOf enc x).length → Reaches n s t →
    d.starting dec → d.config.boundarySet = .derived →
    d.src.supplyAll (t.snk.held.drop s.snk.held.length) = some q →
    Reaches n d { d.endedAs dec .ok 0 (some x) with src := q } ∧
    q.taken = d.src.taken ++ t.snk.held.drop s.snk.held.length

/-- R94: a source holding two encodings back to back decodes, by two commands, into what each denotes, in order; this holds
after an `OVERFLOW` as well. -/
def Obligations.BackToBackDecodes : Prop :=
  ∀ (s : State) (i j : Instr) (e₁ e₂ : List Byte) (q : Source),
    i = .decU ∨ i = .decS → j = .decU ∨ j = .decS → s.starting i →
    accepted (permitOf i s.config.boundarySet) e₁ = true ∨ overflows (permitOf i s.config.boundarySet) e₁ = true →
    accepted (permitOf j s.config.boundarySet) e₂ = true → s.src.supplyAll (e₁ ++ e₂) = some q →
    ∃ t, Reaches (1 + e₁.length) s t ∧ t.src.taken = s.src.taken ++ e₁ ∧
      (accepted (permitOf i s.config.boundarySet) e₁ = true → t.code = .ok ∧ t.result = some (decodedWord i e₁)) ∧
      (overflows (permitOf i s.config.boundarySet) e₁ = true → t.code = .overflow ∧ t.result = none) ∧
      Reaches (1 + e₂.length) { t with agenda := [.writeCmd (encode j)] }
        { s.endedAs j .ok 0 (some (decodedWord j e₂)) with src := q } ∧
      q.taken = s.src.taken ++ e₁ ++ e₂

/-- R95: under `LITERAL`, `DEC_U` overflows on the encoding of every v ≥ 2^127, whose 19th byte is 0x02 or 0x03, and `DEC_S`
on that of every v ≥ 2^126, whose 19th byte is 0x01, and every v ≤ −2^126 − 1, whose 19th byte is 0x7E; every other value
round-trips. -/
def Obligations.RoundTripLiteral : Prop :=
  ∀ (s : State) (x : Word) (q : Source), s.config.boundarySet = .literal →
    (s.starting .decU → s.src.supplyAll (unsignedEncoding x) = some q →
      (2 ^ 127 ≤ x.toNat →
        ((unsignedEncoding x)[18]? = some 0x02 ∨ (unsignedEncoding x)[18]? = some 0x03) ∧
        Reaches (1 + (unsignedEncoding x).length) s { s.endedAs .decU .overflow 0 none with src := q }) ∧
      (x.toNat < 2 ^ 127 →
        Reaches (1 + (unsignedEncoding x).length) s { s.endedAs .decU .ok 0 (some x) with src := q })) ∧
    (s.starting .decS → s.src.supplyAll (signedEncoding x) = some q →
      (2 ^ 126 ≤ x.toInt → (signedEncoding x)[18]? = some 0x01) ∧
      (x.toInt ≤ -(2 ^ 126) - 1 → (signedEncoding x)[18]? = some 0x7E) ∧
      (2 ^ 126 ≤ x.toInt ∨ x.toInt ≤ -(2 ^ 126) - 1 →
        Reaches (1 + (signedEncoding x).length) s { s.endedAs .decS .overflow 0 none with src := q }) ∧
      (-(2 ^ 126) ≤ x.toInt → x.toInt < 2 ^ 126 →
        Reaches (1 + (signedEncoding x).length) s { s.endedAs .decS .ok 0 (some x) with src := q }))

/-! ### Hosts and systems -/

/-- R67, R118: the pseudo-instructions `ENC_U <literal>` and `ENC_S <literal>` run as their expansion says: the literal's
pattern goes to `VALUE`, the encoding to the sink, the host's last poll reads `STATUS` = 0x02 or 0x22, and what follows the
pseudo-instruction is left on the agenda.
The step count 3 + n is the model's: one step for each host action (log entry 4), and one poll with one turn of the core in
each step under `wait` (log entry 12). -/
def Obligations.EncodePseudoInstructionRuns : Prop :=
  (∀ (s : State) (x : Int) (k : Sink) (rest : List Move),
    s.phase = .idle → literalWf x = true → s.agenda = HostLine.expand (.encU x) ++ rest →
    s.snk.acceptAll (unsignedEncoding (BitVec.ofInt 128 x)) = some k →
    Reaches (3 + (unsignedEncoding (BitVec.ofInt 128 x)).length) s
      { s.endedAs .encU .ok 0 (some (BitVec.ofNat 128 (unsignedEncoding (BitVec.ofInt 128 x)).length)) with
        snk := k, value := some (BitVec.ofInt 128 x), agenda := rest, readData := some (.status 0x02) }) ∧
  (∀ (s : State) (x : Int) (k : Sink) (rest : List Move),
    s.phase = .idle → literalWf x = true → s.agenda = HostLine.expand (.encS x) ++ rest →
    s.snk.acceptAll (signedEncoding (BitVec.ofInt 128 x)) = some k →
    Reaches (3 + (signedEncoding (BitVec.ofInt 128 x)).length) s
      { s.endedAs .encS .ok 0 (some (BitVec.ofNat 128 (signedEncoding (BitVec.ofInt 128 x)).length)) with
        snk := k, value := some (BitVec.ofInt 128 x), agenda := rest, readData := some (.status 0x22) })

/-- R67, R118: the pseudo-instructions `DEC_U` and `DEC_S` run as their expansion says, on a legal encoding (last poll
`STATUS` = 0x42 or 0x62, the value in `RESULT`) and on one that overflows (0x46 or 0x66), and what follows the
pseudo-instruction is left on the agenda.
The step count 2 + n is the model's (log entries 4 and 12). -/
def Obligations.DecodePseudoInstructionRuns : Prop :=
  ∀ (s : State) (line : HostLine) (i : Instr) (okStatus overflowStatus : Byte) (e : List Byte) (q : Source)
    (rest : List Move),
    (line = .decU ∧ i = .decU ∧ okStatus = 0x42 ∧ overflowStatus = 0x46) ∨
      (line = .decS ∧ i = .decS ∧ okStatus = 0x62 ∧ overflowStatus = 0x66) →
    s.phase = .idle → s.agenda = line.expand ++ rest → s.src.supplyAll e = some q →
    (accepted (permitOf i s.config.boundarySet) e = true →
      Reaches (2 + e.length) s
        { s.endedAs i .ok 0 (some (decodedWord i e)) with
          src := q, agenda := rest, readData := some (.status okStatus) }) ∧
    (overflows (permitOf i s.config.boundarySet) e = true →
      Reaches (2 + e.length) s
        { s.endedAs i .overflow 0 none with src := q, agenda := rest, readData := some (.status overflowStatus) })

/-- R67, R118, R119: whatever a command's outcome and however its stream delays, a host that waits sees exactly the state the
command ends in: if the command started alone first ends after n steps in t, then with `wait` after its `CMD` write it ends in
t after n + 1 steps, the last poll reading t's `STATUS`, with what follows on the agenda.
The step counts are the model's (log entries 4, 12 and 21). -/
def Obligations.WaitSeesTheEnding : Prop :=
  ∀ (s t : State) (i : Instr) (n : Nat) (rest : List Move),
    s.starting i → 0 < n → Reaches n s t → t.phase = .idle →
    (∀ m u, 0 < m → m < n → Reaches m s u → u.phase ≠ .idle) →
    Reaches (n + 1) { s with agenda := .writeCmd (encode i) :: .wait :: rest }
      { t with agenda := rest, readData := some (.status t.status) }

/-- R62, R63, R64: each front-end verb issues exactly the one command it names, with its argument as `VALUE` or as the
source's content; a literal with a leading `-` is fatal for `encode-unsigned`.
That a literal outside the command's range is fatal too, so that nothing reaches the core, is the model's choice
(log entry 16). -/
def Obligations.FrontEndVerbsCallOneCommand : Prop :=
  ∀ c : FrontEndCall,
    (c.wf = true → ∃ before, c.moves = some (before ++ [.writeCmd (encode c.command), .wait]) ∧
      (match c with
        | .encodeUnsigned x => before = [.writeValue (BitVec.ofInt 128 x)] ∧ (BitVec.ofInt 128 x).toNat = x
        | .encodeSigned x => before = [.writeValue (BitVec.ofInt 128 x)] ∧ (BitVec.ofInt 128 x).toInt = x
        | .decodeUnsigned bs => before = [.connectSource (Source.reference bs 0)]
        | .decodeSigned bs => before = [.connectSource (Source.reference bs 0)])) ∧
    (c.wf = false → c.moves = none) ∧
    (∀ x, c = .encodeUnsigned x → x < 0 ∨ 2 ^ 128 ≤ x → c.moves = none) ∧
    (∀ x, c = .encodeSigned x → x < -(2 ^ 127) ∨ 2 ^ 127 ≤ x → c.moves = none)

/-- R7, R15, R35: under any well-formed plain map, one shape of `REG_MAP`, writing the bus words of a value to a register's addresses is the host's
write of that register with that value, whatever the word order and lanes, and reading the same addresses is the host's read
of it, which returns those bus words.
What makes a map well formed, and that a transaction accesses every piece, are the model's choice of what a plain map is (log entry 14); any other `REG_MAP` is a `BusBinding`. -/
def Obligations.BusBindingCarriesRegisters : Prop :=
  ∀ (m : RegMap) (r : HostReg) (ps : List BusPiece), m.wf = true → (r, ps) ∈ m.bound →
    (∀ x : Word, r = .value →
      busWrite m ((ps.map BusPiece.addr).zip (splitPieces m.filler ps x.toNat)) = some (.writeValue x) ∧
      busReturns m (ps.map BusPiece.addr) (.value x) =
        some ((ps.map BusPiece.addr).zip (splitPieces m.filler ps x.toNat)) ∧
      busRead m (ps.map BusPiece.addr) = some .readValue) ∧
    (∀ x : Word, r = .result →
      busWrite m ((ps.map BusPiece.addr).zip (splitPieces m.filler ps x.toNat)) = some (.writeResult x) ∧
      busReturns m (ps.map BusPiece.addr) (.result x) =
        some ((ps.map BusPiece.addr).zip (splitPieces m.filler ps x.toNat)) ∧
      busRead m (ps.map BusPiece.addr) = some .readResult) ∧
    (∀ w : Byte, r = .cmd →
      busWrite m ((ps.map BusPiece.addr).zip (splitPieces m.filler ps w.toNat)) = some (.writeCmd w) ∧
      busReturns m (ps.map BusPiece.addr) (.cmd w) =
        some ((ps.map BusPiece.addr).zip (splitPieces m.filler ps w.toNat)) ∧
      busRead m (ps.map BusPiece.addr) = some .readCmd) ∧
    (∀ w : Byte, r = .status →
      busWrite m ((ps.map BusPiece.addr).zip (splitPieces m.filler ps w.toNat)) = some (.writeStatus w) ∧
      busReturns m (ps.map BusPiece.addr) (.status w) =
        some ((ps.map BusPiece.addr).zip (splitPieces m.filler ps w.toNat)) ∧
      busRead m (ps.map BusPiece.addr) = some .readStatus)

/-- R7, R15, R24: whatever `REG_MAP` is, an access on the bus does to the core exactly what its register transactions do as host
actions, in order, and it reaches neither the streams nor the parameters; where one of them faults, so does the access, and
none is refused by the model.
That the transactions of one access follow one another with no core step between them is the model's choice
(log entries 4 and 14). -/
def Obligations.BusAccessIsItsTransactions : Prop :=
  ∀ (b : BusBinding) (past : List BusEvent) (a : BusAccess) (s : State),
    let moves := (b.issues past a).map RegAccess.move
    let queued := { s with agenda := moves ++ s.agenda }
    (∀ t e words, busAccess b past a s = .next (t, e, words) →
      Reaches moves.length queued t ∧ e.access = a ∧ words = b.returns past a e.readings ∧
      t.src = s.src ∧ t.snk = s.snk ∧ t.config = s.config) ∧
    (∀ f, busAccess b past a s = .fault f → Sys2Proof.core.run moves.length queued = .fault f) ∧
    (∀ r, busAccess b past a s ≠ .refused r)

/-- R7, R31, R110: a system right after reset has one core for each set of parameters given, at least one; each is the core of
that set right after reset, but for streams of its own.
Which streams these are is the model's choice (log entries 3 and 20). -/
def Obligations.ResetCoresBuiltAsGiven : Prop :=
  ∀ (first : Config) (others : List Config),
    (resetCores first others).length = others.length + 1 ∧
    ∀ i c, (first :: others)[i]? = some c →
      (resetCores first others)[i]? = some { State.resetWith c with
        src := { taken := [], ahead := [], tail := .draws i 0 },
        snk := { held := [], ahead := [], tail := .draws i 0 } }

/-- R110: a step of one core of a system leaves every other core as it was.
A step that faults or is refused has no next state for any core; that is the model's choice (log entry 19). -/
def Obligations.CoresAreIndependent : Prop :=
  ∀ (cores cores' : List State) (n m : Nat), stepOf n cores = .next cores' → m ≠ n →
    cores'[m]? = cores[m]? ∧ cores'.length = cores.length ∧
    ∀ s, cores[n]? = some s → ∃ t, step s = .next t ∧ cores'[n]? = some t
end

