-- ==== Sys2Proof/Laws/Bus.lean ====
section
/-! SUPPORT. What a register transaction can do, and what the plain maps' shared operations do: a piece carries its bits, and
splitting a register's value into bus words and joining them again gives the value back. -/

namespace Sys2Proof.Machine

/-- What a register transaction can do: it neither reads nor writes the agenda, reaches neither the streams nor the
parameters, and is never refused by the model. -/
theorem takeMove_regAccess (a : RegAccess) (s : State) (l : List Move) :
    (∀ t, takeMove a.move s = .next t →
      takeMove a.move { s with agenda := l } = .next { t with agenda := l } ∧
      t.agenda = s.agenda ∧ t.src = s.src ∧ t.snk = s.snk ∧ t.config = s.config) ∧
    (∀ f, takeMove a.move s = .fault f → takeMove a.move { s with agenda := l } = .fault f) ∧
    (∀ r, takeMove a.move s ≠ .refused r) := by
  obtain ⟨config, phase, op, v, done, count, acc, shift, b, value, code, kind, lastOp, result, mark, src, snk, ag, rd⟩ := s
  cases a with
  | read r =>
    cases r <;> cases value <;> cases result <;> refine ⟨?_, ?_, ?_⟩ <;> intro t h <;> cases h <;>
      first | rfl | exact ⟨rfl, rfl, rfl, rfl, rfl⟩
  | write r x =>
    cases r
    case cmd =>
      simp only [RegAccess.move, takeMove, writeCmd]
      cases decode (x.setWidth 8) with
      | error e =>
        cases e <;> refine ⟨?_, ?_, ?_⟩ <;> intro t h <;> cases h <;> exact ⟨rfl, rfl, rfl, rfl, rfl⟩
      | ok i =>
        cases i <;> cases phase <;> cases value <;> refine ⟨?_, ?_, ?_⟩ <;> intro t h <;> cases h <;>
          first | rfl | exact ⟨rfl, rfl, rfl, rfl, rfl⟩
    all_goals
      refine ⟨?_, ?_, ?_⟩ <;> intro t h <;> cases h
      exact ⟨rfl, rfl, rfl, rfl, rfl⟩

/-- The bus word of a piece carries the piece's bits at its lane, whatever the filler. -/
theorem BusPiece.word_lane (filler : Nat) (p : BusPiece) (x : Nat) :
    p.word filler x / 2 ^ p.lane % 2 ^ p.width = x % 2 ^ p.width := by
  have h : filler % 2 ^ p.lane < 2 ^ p.lane := Nat.mod_lt _ (by positivity)
  rw [BusPiece.word, Nat.add_mul_div_left _ _ (by positivity), Nat.div_eq_of_lt h, Nat.zero_add,
    Nat.add_mul_mod_self_left, Nat.mod_mod]

@[simp] theorem splitPieces_length (filler : Nat) (ps : List BusPiece) (x : Nat) :
    (splitPieces filler ps x).length = ps.length := by
  induction ps generalizing x with
  | nil => rfl
  | cons p ps ih => simp [splitPieces, ih]

/-- Joining the bus words a value is split into gives the value, where the pieces are wide enough for it. -/
theorem joinPieces_splitPieces (filler : Nat) (ps : List BusPiece) (x : Nat)
    (h : x < 2 ^ (ps.map BusPiece.width).sum) : joinPieces (ps.zip (splitPieces filler ps x)) = x := by
  induction ps generalizing x with
  | nil => simpa [joinPieces, splitPieces] using (by simpa using h : x = 0).symm
  | cons p ps ih =>
    simp only [splitPieces, List.zip_cons_cons, joinPieces, BusPiece.word_lane]
    rw [ih]
    · exact Nat.mod_add_div _ _
    · rw [Nat.div_lt_iff_lt_mul (by positivity), mul_comm, ← pow_add]
      simpa using h

/-- In a well-formed map, exactly the addresses of a bound register are the register's, no address serves two of its pieces,
and its pieces make up its width. -/
theorem RegMap.bindingAt_of_mem {m : RegMap} {r : HostReg} {ps : List BusPiece} (hw : m.wf = true)
    (hm : (r, ps) ∈ m.bound) :
    m.bindingAt (ps.map BusPiece.addr) = some (r, ps) ∧ (ps.map BusPiece.addr).Nodup ∧
      (ps.map BusPiece.width).sum = r.width := by
  obtain ⟨bound, filler⟩ := m
  simp only [RegMap.wf, Bool.and_eq_true, List.all_eq_true, beq_iff_eq, decide_eq_true_eq] at hw hm ⊢
  obtain ⟨hwidth, hnodup⟩ := hw
  refine ⟨?_, (List.nodup_flatMap.1 hnodup).1 _ hm, hwidth _ hm⟩
  unfold RegMap.bindingAt
  induction bound with
  | nil => simp at hm
  | cons e es ih =>
    rw [List.flatMap_cons, List.nodup_append] at hnodup
    rcases List.mem_cons.1 hm with rfl | hm'
    · simp [List.isPerm_iff]
    · have other : (e.2.map BusPiece.addr).isPerm (ps.map BusPiece.addr) = false := by
        rw [Bool.eq_false_iff]
        intro hp
        obtain ⟨p, hpm⟩ : ∃ p, p ∈ ps := by
          refine List.exists_mem_of_ne_nil _ ?_
          rintro rfl
          have := hwidth _ hm
          cases r <;> simp [HostReg.width] at this
        have ha : p.addr ∈ ps.map BusPiece.addr := List.mem_map_of_mem hpm
        exact hnodup.2.2 _ ((List.isPerm_iff.1 hp).mem_iff.2 ha) _ (List.mem_flatMap.2 ⟨_, hm', ha⟩) rfl
      simp only [List.find?_cons, other]
      exact ih hm' (fun a h => hwidth a (List.mem_cons_of_mem _ h)) hnodup.2.1

end Sys2Proof.Machine
end

