-- ==== Sys2Proof/Laws/State.lean ====
section
/-! SUPPORT. What each named update of the state does to each field: one lemma per field per update. -/

namespace Sys2Proof.Machine

/-! ### `State.clearDatapath` -/

@[simp] theorem State.clearDatapath_config (s : State) : (s.clearDatapath).config = s.config := rfl
@[simp] theorem State.clearDatapath_phase (s : State) : (s.clearDatapath).phase = s.phase := rfl
@[simp] theorem State.clearDatapath_op (s : State) : (s.clearDatapath).op = s.op := rfl
@[simp] theorem State.clearDatapath_v (s : State) : (s.clearDatapath).v = none := rfl
@[simp] theorem State.clearDatapath_done (s : State) : (s.clearDatapath).done = none := rfl
@[simp] theorem State.clearDatapath_count (s : State) : (s.clearDatapath).count = none := rfl
@[simp] theorem State.clearDatapath_acc (s : State) : (s.clearDatapath).acc = none := rfl
@[simp] theorem State.clearDatapath_shift (s : State) : (s.clearDatapath).shift = none := rfl
@[simp] theorem State.clearDatapath_b (s : State) : (s.clearDatapath).b = none := rfl
@[simp] theorem State.clearDatapath_value (s : State) : (s.clearDatapath).value = s.value := rfl
@[simp] theorem State.clearDatapath_code (s : State) : (s.clearDatapath).code = s.code := rfl
@[simp] theorem State.clearDatapath_ioKind (s : State) : (s.clearDatapath).ioKind = s.ioKind := rfl
@[simp] theorem State.clearDatapath_lastOp (s : State) : (s.clearDatapath).lastOp = s.lastOp := rfl
@[simp] theorem State.clearDatapath_result (s : State) : (s.clearDatapath).result = s.result := rfl
@[simp] theorem State.clearDatapath_refusalMark (s : State) : (s.clearDatapath).refusalMark = s.refusalMark := rfl
@[simp] theorem State.clearDatapath_src (s : State) : (s.clearDatapath).src = s.src := rfl
@[simp] theorem State.clearDatapath_snk (s : State) : (s.clearDatapath).snk = s.snk := rfl
@[simp] theorem State.clearDatapath_agenda (s : State) : (s.clearDatapath).agenda = s.agenda := rfl
@[simp] theorem State.clearDatapath_readData (s : State) : (s.clearDatapath).readData = s.readData := rfl

/-! ### `State.startCommand` -/

@[simp] theorem State.startCommand_config (i : Instr) (s : State) : (s.startCommand i).config = s.config := rfl
@[simp] theorem State.startCommand_phase (i : Instr) (s : State) : (s.startCommand i).phase = .run := rfl
@[simp] theorem State.startCommand_op (i : Instr) (s : State) : (s.startCommand i).op = some i.op := rfl
@[simp] theorem State.startCommand_v (i : Instr) (s : State) : (s.startCommand i).v = none := rfl
@[simp] theorem State.startCommand_done (i : Instr) (s : State) : (s.startCommand i).done = none := rfl
@[simp] theorem State.startCommand_count (i : Instr) (s : State) : (s.startCommand i).count = none := rfl
@[simp] theorem State.startCommand_acc (i : Instr) (s : State) : (s.startCommand i).acc = none := rfl
@[simp] theorem State.startCommand_shift (i : Instr) (s : State) : (s.startCommand i).shift = none := rfl
@[simp] theorem State.startCommand_b (i : Instr) (s : State) : (s.startCommand i).b = none := rfl
@[simp] theorem State.startCommand_value (i : Instr) (s : State) : (s.startCommand i).value = s.value := rfl
@[simp] theorem State.startCommand_code (i : Instr) (s : State) : (s.startCommand i).code = .noOutcome := rfl
@[simp] theorem State.startCommand_ioKind (i : Instr) (s : State) : (s.startCommand i).ioKind = 0 := rfl
@[simp] theorem State.startCommand_lastOp (i : Instr) (s : State) : (s.startCommand i).lastOp = i.op := rfl
@[simp] theorem State.startCommand_result (i : Instr) (s : State) : (s.startCommand i).result = none := rfl
@[simp] theorem State.startCommand_refusalMark (i : Instr) (s : State) : (s.startCommand i).refusalMark = s.refusalMark := rfl
@[simp] theorem State.startCommand_src (i : Instr) (s : State) : (s.startCommand i).src = s.src := rfl
@[simp] theorem State.startCommand_snk (i : Instr) (s : State) : (s.startCommand i).snk = s.snk := rfl
@[simp] theorem State.startCommand_agenda (i : Instr) (s : State) : (s.startCommand i).agenda = s.agenda := rfl
@[simp] theorem State.startCommand_readData (i : Instr) (s : State) : (s.startCommand i).readData = s.readData := rfl

/-! ### `State.endCommand` -/

@[simp] theorem State.endCommand_config (c : Code) (k : BitVec 2) (r : Option Word) (s : State) : (s.endCommand c k r).config = s.config := rfl
@[simp] theorem State.endCommand_phase (c : Code) (k : BitVec 2) (r : Option Word) (s : State) : (s.endCommand c k r).phase = .idle := rfl
@[simp] theorem State.endCommand_op (c : Code) (k : BitVec 2) (r : Option Word) (s : State) : (s.endCommand c k r).op = s.op := rfl
@[simp] theorem State.endCommand_v (c : Code) (k : BitVec 2) (r : Option Word) (s : State) : (s.endCommand c k r).v = none := rfl
@[simp] theorem State.endCommand_done (c : Code) (k : BitVec 2) (r : Option Word) (s : State) : (s.endCommand c k r).done = none := rfl
@[simp] theorem State.endCommand_count (c : Code) (k : BitVec 2) (r : Option Word) (s : State) : (s.endCommand c k r).count = none := rfl
@[simp] theorem State.endCommand_acc (c : Code) (k : BitVec 2) (r : Option Word) (s : State) : (s.endCommand c k r).acc = none := rfl
@[simp] theorem State.endCommand_shift (c : Code) (k : BitVec 2) (r : Option Word) (s : State) : (s.endCommand c k r).shift = none := rfl
@[simp] theorem State.endCommand_b (c : Code) (k : BitVec 2) (r : Option Word) (s : State) : (s.endCommand c k r).b = none := rfl
@[simp] theorem State.endCommand_value (c : Code) (k : BitVec 2) (r : Option Word) (s : State) : (s.endCommand c k r).value = s.value := rfl
@[simp] theorem State.endCommand_code (c : Code) (k : BitVec 2) (r : Option Word) (s : State) : (s.endCommand c k r).code = c := rfl
@[simp] theorem State.endCommand_ioKind (c : Code) (k : BitVec 2) (r : Option Word) (s : State) : (s.endCommand c k r).ioKind = k := rfl
@[simp] theorem State.endCommand_lastOp (c : Code) (k : BitVec 2) (r : Option Word) (s : State) : (s.endCommand c k r).lastOp = s.lastOp := rfl
@[simp] theorem State.endCommand_result (c : Code) (k : BitVec 2) (r : Option Word) (s : State) : (s.endCommand c k r).result = r := rfl
@[simp] theorem State.endCommand_refusalMark (c : Code) (k : BitVec 2) (r : Option Word) (s : State) : (s.endCommand c k r).refusalMark = s.refusalMark := rfl
@[simp] theorem State.endCommand_src (c : Code) (k : BitVec 2) (r : Option Word) (s : State) : (s.endCommand c k r).src = s.src := rfl
@[simp] theorem State.endCommand_snk (c : Code) (k : BitVec 2) (r : Option Word) (s : State) : (s.endCommand c k r).snk = s.snk := rfl
@[simp] theorem State.endCommand_agenda (c : Code) (k : BitVec 2) (r : Option Word) (s : State) : (s.endCommand c k r).agenda = s.agenda := rfl
@[simp] theorem State.endCommand_readData (c : Code) (k : BitVec 2) (r : Option Word) (s : State) : (s.endCommand c k r).readData = s.readData := rfl

/-! ### `State.outcome` -/

@[simp] theorem State.outcome_config (c : Code) (k : BitVec 2) (r : Option Word) (s : State) : (s.outcome c k r).config = s.config := rfl
@[simp] theorem State.outcome_phase (c : Code) (k : BitVec 2) (r : Option Word) (s : State) : (s.outcome c k r).phase = .idle := rfl
@[simp] theorem State.outcome_op (c : Code) (k : BitVec 2) (r : Option Word) (s : State) : (s.outcome c k r).op = s.op := rfl
@[simp] theorem State.outcome_v (c : Code) (k : BitVec 2) (r : Option Word) (s : State) : (s.outcome c k r).v = none := rfl
@[simp] theorem State.outcome_done (c : Code) (k : BitVec 2) (r : Option Word) (s : State) : (s.outcome c k r).done = none := rfl
@[simp] theorem State.outcome_count (c : Code) (k : BitVec 2) (r : Option Word) (s : State) : (s.outcome c k r).count = none := rfl
@[simp] theorem State.outcome_acc (c : Code) (k : BitVec 2) (r : Option Word) (s : State) : (s.outcome c k r).acc = none := rfl
@[simp] theorem State.outcome_shift (c : Code) (k : BitVec 2) (r : Option Word) (s : State) : (s.outcome c k r).shift = none := rfl
@[simp] theorem State.outcome_b (c : Code) (k : BitVec 2) (r : Option Word) (s : State) : (s.outcome c k r).b = none := rfl
@[simp] theorem State.outcome_value (c : Code) (k : BitVec 2) (r : Option Word) (s : State) : (s.outcome c k r).value = s.value := rfl
@[simp] theorem State.outcome_code (c : Code) (k : BitVec 2) (r : Option Word) (s : State) : (s.outcome c k r).code = c := rfl
@[simp] theorem State.outcome_ioKind (c : Code) (k : BitVec 2) (r : Option Word) (s : State) : (s.outcome c k r).ioKind = k := rfl
@[simp] theorem State.outcome_lastOp (c : Code) (k : BitVec 2) (r : Option Word) (s : State) : (s.outcome c k r).lastOp = s.lastOp := rfl
@[simp] theorem State.outcome_result (c : Code) (k : BitVec 2) (r : Option Word) (s : State) : (s.outcome c k r).result = r := rfl
@[simp] theorem State.outcome_refusalMark (c : Code) (k : BitVec 2) (r : Option Word) (s : State) : (s.outcome c k r).refusalMark = s.refusalMark := rfl
@[simp] theorem State.outcome_src (c : Code) (k : BitVec 2) (r : Option Word) (s : State) : (s.outcome c k r).src = s.src := rfl
@[simp] theorem State.outcome_snk (c : Code) (k : BitVec 2) (r : Option Word) (s : State) : (s.outcome c k r).snk = s.snk := rfl
@[simp] theorem State.outcome_agenda (c : Code) (k : BitVec 2) (r : Option Word) (s : State) : (s.outcome c k r).agenda = s.agenda := rfl
@[simp] theorem State.outcome_readData (c : Code) (k : BitVec 2) (r : Option Word) (s : State) : (s.outcome c k r).readData = s.readData := rfl

/-! ### `State.refuse` -/

@[simp] theorem State.refuse_config (s : State) : (s.refuse).config = s.config := rfl
@[simp] theorem State.refuse_phase (s : State) : (s.refuse).phase = s.phase := rfl
@[simp] theorem State.refuse_op (s : State) : (s.refuse).op = s.op := rfl
@[simp] theorem State.refuse_v (s : State) : (s.refuse).v = s.v := rfl
@[simp] theorem State.refuse_done (s : State) : (s.refuse).done = s.done := rfl
@[simp] theorem State.refuse_count (s : State) : (s.refuse).count = s.count := rfl
@[simp] theorem State.refuse_acc (s : State) : (s.refuse).acc = s.acc := rfl
@[simp] theorem State.refuse_shift (s : State) : (s.refuse).shift = s.shift := rfl
@[simp] theorem State.refuse_b (s : State) : (s.refuse).b = s.b := rfl
@[simp] theorem State.refuse_value (s : State) : (s.refuse).value = s.value := rfl
@[simp] theorem State.refuse_code (s : State) : (s.refuse).code = s.code := rfl
@[simp] theorem State.refuse_ioKind (s : State) : (s.refuse).ioKind = s.ioKind := rfl
@[simp] theorem State.refuse_lastOp (s : State) : (s.refuse).lastOp = s.lastOp := rfl
@[simp] theorem State.refuse_result (s : State) : (s.refuse).result = s.result := rfl
@[simp] theorem State.refuse_refusalMark (s : State) : (s.refuse).refusalMark = true := rfl
@[simp] theorem State.refuse_src (s : State) : (s.refuse).src = s.src := rfl
@[simp] theorem State.refuse_snk (s : State) : (s.refuse).snk = s.snk := rfl
@[simp] theorem State.refuse_agenda (s : State) : (s.refuse).agenda = s.agenda := rfl
@[simp] theorem State.refuse_readData (s : State) : (s.refuse).readData = s.readData := rfl

/-! ### `State.reads` -/

@[simp] theorem State.reads_config (r : Reading) (s : State) : (s.reads r).config = s.config := rfl
@[simp] theorem State.reads_phase (r : Reading) (s : State) : (s.reads r).phase = s.phase := rfl
@[simp] theorem State.reads_op (r : Reading) (s : State) : (s.reads r).op = s.op := rfl
@[simp] theorem State.reads_v (r : Reading) (s : State) : (s.reads r).v = s.v := rfl
@[simp] theorem State.reads_done (r : Reading) (s : State) : (s.reads r).done = s.done := rfl
@[simp] theorem State.reads_count (r : Reading) (s : State) : (s.reads r).count = s.count := rfl
@[simp] theorem State.reads_acc (r : Reading) (s : State) : (s.reads r).acc = s.acc := rfl
@[simp] theorem State.reads_shift (r : Reading) (s : State) : (s.reads r).shift = s.shift := rfl
@[simp] theorem State.reads_b (r : Reading) (s : State) : (s.reads r).b = s.b := rfl
@[simp] theorem State.reads_value (r : Reading) (s : State) : (s.reads r).value = s.value := rfl
@[simp] theorem State.reads_code (r : Reading) (s : State) : (s.reads r).code = s.code := rfl
@[simp] theorem State.reads_ioKind (r : Reading) (s : State) : (s.reads r).ioKind = s.ioKind := rfl
@[simp] theorem State.reads_lastOp (r : Reading) (s : State) : (s.reads r).lastOp = s.lastOp := rfl
@[simp] theorem State.reads_result (r : Reading) (s : State) : (s.reads r).result = s.result := rfl
@[simp] theorem State.reads_refusalMark (r : Reading) (s : State) : (s.reads r).refusalMark = s.refusalMark := rfl
@[simp] theorem State.reads_src (r : Reading) (s : State) : (s.reads r).src = s.src := rfl
@[simp] theorem State.reads_snk (r : Reading) (s : State) : (s.reads r).snk = s.snk := rfl
@[simp] theorem State.reads_agenda (r : Reading) (s : State) : (s.reads r).agenda = s.agenda := rfl
@[simp] theorem State.reads_readData (r : Reading) (s : State) : (s.reads r).readData = some r := rfl

/-! ### The endings are the outcomes the spec writes out -/

theorem State.endCommand_eq_outcome (c : Code) (k : BitVec 2) (r : Option Word) (s : State) :
    s.endCommand c k r = s.outcome c k r := rfl

theorem State.finish_eq_outcome (d : Word) (s : State) : s.finish d = s.outcome .ok 0 (some d) := rfl

theorem State.raiseIoError_eq_outcome (k : BitVec 2) (s : State) : s.raiseIoError k = s.outcome .ioError k none := rfl

theorem State.raiseOverflow_eq_outcome (s : State) : s.raiseOverflow = s.outcome .overflow 0 none := rfl

/-! ### `BUSY` is `PHASE` -/

theorem State.busy_eq_true_iff (s : State) : s.busy = true ↔ s.phase ≠ .idle := by
  cases h : s.phase <;> simp [State.busy, h]

theorem State.busy_eq_false_iff (s : State) : s.busy = false ↔ s.phase = .idle := by
  cases h : s.phase <;> simp [State.busy, h]

end Sys2Proof.Machine
end

