-- ==== Sys2Proof/Laws/Ops.lean ====
section
/-! SUPPORT. What each shared operation can do, said once; later proofs cite these and do not unfold the operations. -/

namespace Sys2Proof.Machine

/-! ### Bits of bytes -/

theorem contBit_eq_true_iff (b : Byte) : contBit b = true ↔ 128 ≤ b.toNat := by
  have h : ∀ b : BitVec 8, b.getLsbD 7 = true ↔ 128 ≤ b.toNat := by decide
  exact h b

theorem contBit_eq_false_iff (b : Byte) : contBit b = false ↔ b.toNat < 128 := by
  have h : ∀ b : BitVec 8, b.getLsbD 7 = false ↔ b.toNat < 128 := by decide
  exact h b

theorem byteGroup_toNat (b : Byte) : (byteGroup b).toNat = b.toNat % 128 := by
  simp [byteGroup, BitVec.toNat_setWidth, BitVec.extractLsb'_toNat]
  omega

theorem lowGroup_toNat (x : Word) : (lowGroup x).toNat = x.toNat % 128 := by
  simp [lowGroup, BitVec.toNat_setWidth, BitVec.extractLsb'_toNat]
  omega

/-! ### Commands and `OP` -/

@[simp] theorem instrOfOp_op (i : Instr) : instrOfOp i.op = i := by cases i <;> rfl

@[simp] theorem op_instrOfOp (o : BitVec 2) : (instrOfOp o).op = o := by
  have h : ∀ o : BitVec 2, (instrOfOp o).op = o := by decide
  exact h o

/-! ### Streams -/

/-- What a request of a source can do: no answer, a failure that transfers nothing, or one byte. -/
theorem Source.read_cases (q : Source) :
    (∃ q', q.read = (none, q') ∧ q'.taken = q.taken) ∨
    (∃ f q', q.read = (some (.fail f), q') ∧ q'.taken = q.taken) ∨
    (∃ b q', q.read = (some (.byte b), q') ∧ q'.taken = q.taken ++ [b]) := by
  obtain ⟨taken, ahead, tail⟩ := q
  cases ahead with
  | cons a rest => cases a <;> simp [Source.read, Source.record]
  | nil =>
    cases tail with
    | waits => simp [Source.read]
    | fails k => simp [Source.read]
    | repeats b => simp [Source.read, Source.record]
    | draws i n =>
      cases h : Config.sourceDraw i n with
      | none => simp [Source.read, h]
      | some a => cases a <;> simp [Source.read, Source.record, h]

/-- What a request of a sink can do: no answer, a failure that transfers nothing, or the byte appended. -/
theorem Sink.write_cases (k : Sink) (b : Byte) :
    (∃ k', k.write b = (none, k') ∧ k'.held = k.held) ∨
    (∃ f k', k.write b = (some (.fail f), k') ∧ k'.held = k.held) ∨
    (∃ k', k.write b = (some .ok, k') ∧ k'.held = k.held ++ [b]) := by
  obtain ⟨held, ahead, tail⟩ := k
  cases ahead with
  | cons a rest => cases a <;> simp [Sink.write, Sink.record]
  | nil =>
    cases tail with
    | waits => simp [Sink.write]
    | fails f => simp [Sink.write]
    | accepts => simp [Sink.write, Sink.record]
    | draws i n =>
      cases h : Config.sinkDraw i n with
      | none => simp [Sink.write, h]
      | some a => cases a <;> simp [Sink.write, Sink.record, h]

/-! ### Starts and requests -/

/-- A start of an encode that answers a next state had a value in `VALUE`. -/
theorem startEncode_next {i : Instr} {s t : State} (h : startEncode i s = .next t) :
    ∃ x, s.value = some x ∧ t = { s.startCommand i with v := some x, count := some 0 } := by
  cases hv : s.value with
  | none => simp [startEncode, hv] at h
  | some x => exact ⟨x, rfl, by simpa [startEncode, hv] using h.symm⟩

/-- What one write-request step can do. -/
theorem writeRequest_next {b : Byte} {f : State → State} {s t : State} (h : writeRequest b f s = .next t) :
    (∃ k, s.snk.write b = (none, k) ∧ t = { s with snk := k }) ∨
    (∃ e k, s.snk.write b = (some (.fail e), k) ∧ t = State.raiseIoError (sinkKind e) { s with snk := k }) ∨
    (∃ k, s.snk.write b = (some .ok, k) ∧ t = f { s with snk := k }) := by
  unfold writeRequest at h
  split at h <;> rename_i hw <;> cases h
  · exact .inl ⟨_, hw, rfl⟩
  · exact .inr (.inl ⟨_, _, hw, rfl⟩)
  · exact .inr (.inr ⟨_, hw, rfl⟩)

/-- What one read-request step can do. -/
theorem readRequest_next {f : Byte → State → State} {s t : State} (h : readRequest f s = .next t) :
    (∃ q, s.src.read = (none, q) ∧ t = { s with src := q }) ∨
    (∃ e q, s.src.read = (some (.fail e), q) ∧ t = State.raiseIoError (sourceKind e) { s with src := q }) ∨
    (∃ b q, s.src.read = (some (.byte b), q) ∧ t = f b { s with src := q, b := some b }) := by
  unfold readRequest at h
  split at h <;> rename_i hr <;> cases h
  · exact .inl ⟨_, hr, rfl⟩
  · exact .inr (.inl ⟨_, _, hr, rfl⟩)
  · exact .inr (.inr ⟨_, _, hr, rfl⟩)

/-- A request step always answers a next state. -/
theorem writeRequest_total (b : Byte) (f : State → State) (s : State) : ∃ t, writeRequest b f s = .next t := by
  unfold writeRequest
  split <;> exact ⟨_, rfl⟩

theorem readRequest_total (f : Byte → State → State) (s : State) : ∃ t, readRequest f s = .next t := by
  unfold readRequest
  split <;> exact ⟨_, rfl⟩

/-- What one step of the drain can do. -/
theorem drainRequest_next {s t : State} (h : drainRequest s = .next t) :
    ∃ last, s.b = some last ∧
      ((contBit last = false ∧ t = s.raiseOverflow) ∨
       (contBit last = true ∧ readRequest State.drainOn s = .next t)) := by
  cases hb : s.b with
  | none => simp [drainRequest, hb] at h
  | some last =>
    refine ⟨last, rfl, ?_⟩
    cases hc : contBit last
    · exact .inl ⟨rfl, by simpa [drainRequest, hb, hc] using h.symm⟩
    · exact .inr ⟨rfl, by simpa [drainRequest, hb, hc] using h⟩

end Sys2Proof.Machine
end

