-- ==== Sys2Proof/Laws/Exec.lean ====
section
/-! SUPPORT. What a step of each command, and a step of the machine, can do: the inversion lemmas that invariants and frames
are derived from. -/

namespace Sys2Proof.Machine

/-- Every step of an encode that answers a next state is its start or one write request. -/
theorem execEncU_next {s t : State} (h : execEncU s = .next t) :
    (s.phase = .idle ∧ startEncode .encU s = .next t) ∨
    (s.phase = .run ∧ ∃ x c, s.v = some x ∧ s.count = some c ∧
      writeRequest (unsignedByte x) (encodeUnsignedAccepted x c) s = .next t) := by
  unfold execEncU at h
  split at h
  · exact .inl ⟨‹_›, h⟩
  · split at h
    · exact .inr ⟨‹_›, _, _, ‹_›, ‹_›, h⟩
    · cases h
  · cases h

theorem execEncS_next {s t : State} (h : execEncS s = .next t) :
    (s.phase = .idle ∧ startEncode .encS s = .next t) ∨
    (s.phase = .run ∧ ∃ x c, s.v = some x ∧ s.count = some c ∧
      writeRequest (signedByte x) (encodeSignedAccepted x c) s = .next t) := by
  unfold execEncS at h
  split at h
  · exact .inl ⟨‹_›, h⟩
  · split at h
    · exact .inr ⟨‹_›, _, _, ‹_›, ‹_›, h⟩
    · cases h
  · cases h

/-- Every step of a decode that answers a next state is its start, one read request in `RUN`, or one step of the drain. -/
theorem execDecU_next {s t : State} (h : execDecU s = .next t) :
    (s.phase = .idle ∧ startDecode .decU s = .next t) ∨
    (s.phase = .run ∧ ∃ a sh, s.acc = some a ∧ s.shift = some sh ∧
      readRequest (decodeUnsignedSupplied a sh) s = .next t) ∨
    (s.phase = .drain ∧ drainRequest s = .next t) := by
  unfold execDecU at h
  split at h
  · exact .inl ⟨‹_›, h⟩
  · split at h
    · exact .inr (.inl ⟨‹_›, _, _, ‹_›, ‹_›, h⟩)
    · cases h
  · exact .inr (.inr ⟨‹_›, h⟩)

theorem execDecS_next {s t : State} (h : execDecS s = .next t) :
    (s.phase = .idle ∧ startDecode .decS s = .next t) ∨
    (s.phase = .run ∧ ∃ a sh, s.acc = some a ∧ s.shift = some sh ∧
      readRequest (decodeSignedSupplied a sh) s = .next t) ∨
    (s.phase = .drain ∧ drainRequest s = .next t) := by
  unfold execDecS at h
  split at h
  · exact .inl ⟨‹_›, h⟩
  · split at h
    · exact .inr (.inl ⟨‹_›, _, _, ‹_›, ‹_›, h⟩)
    · cases h
  · exact .inr (.inr ⟨‹_›, h⟩)

/-- The core's turn on an idle core changes nothing; otherwise it is the step of the latched command. -/
theorem coreMove_next {s t : State} (h : coreMove s = .next t) :
    (s.phase = .idle ∧ t = s) ∨ (s.phase ≠ .idle ∧ ∃ o, s.op = some o ∧ exec (instrOfOp o) s = .next t) := by
  unfold coreMove at h
  split at h
  · exact .inl ⟨‹_›, by cases h; rfl⟩
  · rename_i o ho hp
    exact .inr ⟨by simpa using hp, o, ho, h⟩
  · cases h

/-- A step is the core's turn on an empty agenda, or the agenda's first action. -/
theorem step_next {s t : State} (h : step s = .next t) :
    (s.agenda = [] ∧ coreMove s = .next t) ∨
    (∃ m rest, s.agenda = m :: rest ∧ takeMove m { s with agenda := rest } = .next t) := by
  unfold step at h
  split at h
  · exact .inl ⟨‹_›, h⟩
  · exact .inr ⟨_, _, ‹_›, h⟩

end Sys2Proof.Machine
end

