-- ==== Sys2Proof/Laws/Operands.lean ====
section
/-! SUPPORT. The encoders' bit operations in arithmetic, and the bound of the accumulator. -/

namespace Sys2Proof.Machine

theorem shiftRight_seven_eq_zero_iff (x : Word) : x >>> 7 = 0#128 ↔ x.toNat < 128 := by
  rw [← BitVec.toNat_inj]
  simp [Nat.shiftRight_eq_div_pow]

theorem setCont_eq (b : Byte) (h : b.toNat < 128) : setCont b = BitVec.ofNat 8 (b.toNat + 128) := by
  have all : ∀ b : BitVec 8, b.toNat < 128 → setCont b = BitVec.ofNat 8 (b.toNat + 128) := by decide
  exact all b h

theorem clearCont_eq (b : Byte) (h : b.toNat < 128) : clearCont b = BitVec.ofNat 8 b.toNat := by
  have all : ∀ b : BitVec 8, b.toNat < 128 → clearCont b = BitVec.ofNat 8 b.toNat := by decide
  exact all b h

theorem lowGroup_lt (x : Word) : (lowGroup x).toNat < 128 := by
  rw [lowGroup_toNat]
  omega

/-- The byte `ENC_U` offers: the group, with bit 7 set exactly when a nonzero magnitude remains (R70). -/
theorem unsignedByte_eq (x : Word) :
    unsignedByte x = BitVec.ofNat 8 (x.toNat % 128 + if 128 ≤ x.toNat then 128 else 0) := by
  unfold unsignedByte
  split <;> rename_i h <;> rw [shiftRight_seven_eq_zero_iff] at h
  · rw [if_neg (by omega), ← lowGroup_toNat]
    simp
  · rw [if_pos (by omega), setCont_eq _ (lowGroup_lt x), lowGroup_toNat]

/-- The termination test of `ENC_S`: −64 ≤ `V` ≤ 63 (R74). -/
theorem signedLast_eq (x : Word) : signedLast x = decide (-64 ≤ x.toInt ∧ x.toInt ≤ 63) := by
  have zero : x.sshiftRight 6 = 0#128 ↔ x.toInt / 64 = 0 := by
    rw [← BitVec.toInt_inj]
    simp [BitVec.toInt_sshiftRight, Int.shiftRight_eq_div_pow]
  have minusOne : x.sshiftRight 6 = BitVec.allOnes 128 ↔ x.toInt / 64 = -1 := by
    rw [← BitVec.toInt_inj]
    simp [BitVec.toInt_sshiftRight, Int.shiftRight_eq_div_pow]
  unfold signedLast signedDone
  rw [Bool.eq_iff_iff]
  simp only [Bool.or_eq_true, beq_iff_eq, zero, minusOne, decide_eq_true_eq]
  omega

theorem toInt_emod_eq_toNat_mod (x : Word) : (x.toInt % 128).toNat = x.toNat % 128 := by
  have := x.isLt
  rw [BitVec.toInt_eq_toNat_cond]
  split <;> omega

/-- The byte `ENC_S` offers: the group, with bit 7 clear exactly on the last (R73, R74). -/
theorem signedByte_eq (x : Word) :
    signedByte x =
      BitVec.ofNat 8 ((x.toInt % 128).toNat + if -64 ≤ x.toInt ∧ x.toInt ≤ 63 then 0 else 128) := by
  unfold signedByte
  rw [signedLast_eq, toInt_emod_eq_toNat_mod]
  by_cases h : -64 ≤ x.toInt ∧ x.toInt ≤ 63
  · simp only [h, and_self, decide_true, if_true]
    rw [clearCont_eq _ (lowGroup_lt x), lowGroup_toNat]
    rfl
  · simp only [h, decide_false, if_false, Bool.false_eq_true]
    rw [setCont_eq _ (lowGroup_lt x), lowGroup_toNat]

/-- `V` after a group of `ENC_S` that is not the last: a floor division by 128 (R73). -/
theorem signedRest_eq (x : Word) (h : ¬ (-64 ≤ x.toInt ∧ x.toInt ≤ 63)) :
    signedRest x = BitVec.ofInt 128 (x.toInt / 128) := by
  have hi := BitVec.toInt_lt (x := x)
  have lo := BitVec.le_toInt (x := x)
  unfold signedRest
  rw [signedLast_eq]
  simp only [h, decide_false, Bool.false_eq_true, if_false]
  rw [← BitVec.toInt_inj]
  simp only [BitVec.toInt_sshiftRight, Int.shiftRight_eq_div_pow, BitVec.toInt_ofInt]
  rw [Int.bmod_eq_of_le] <;> omega

/-- A group placed below shift 126 keeps the accumulator below the next shift (R80). -/
theorem placeGroup_lt {a : Word} {b : Byte} {sh : BitVec 8} {j : Nat} (hs : sh.toNat = 7 * j)
    (ha : a.toNat < 2 ^ (7 * j)) : (placeGroup a b sh).toNat < 2 ^ (7 * (j + 1)) := by
  unfold placeGroup
  rw [BitVec.toNat_or]
  apply Nat.or_lt_two_pow
  · exact lt_of_lt_of_le ha (Nat.pow_le_pow_right (by omega) (by omega))
  · rw [BitVec.toNat_shiftLeft, byteGroup_toNat, hs, Nat.shiftLeft_eq]
    refine lt_of_le_of_lt (Nat.mod_le _ _) ?_
    rw [show 7 * (j + 1) = 7 + 7 * j by ring, pow_add]
    exact Nat.mul_lt_mul_of_pos_right (by omega) (by positivity)

end Sys2Proof.Machine
end

