-- ==== Sys2Proof/Laws/PerInstr.lean ====
section
/-! SUPPORT. The family `CommandWord`: the fields of each command's word (10_state.md rule R16, 30_encoding.md rule R58). -/

namespace Sys2Proof.Laws.CommandWord

/-- `START` is 1, the reserved bits are 0, and bits 1:0 are the command's `OP`. -/
def Statement (i : Instr) : Prop :=
  cmdWordWf (encode i) = true ∧ opField (encode i) = i.op

theorem encU : Statement .encU := ⟨by decide, by decide⟩
theorem encS : Statement .encS := ⟨by decide, by decide⟩
theorem decU : Statement .decU := ⟨by decide, by decide⟩
theorem decS : Statement .decS := ⟨by decide, by decide⟩

end Sys2Proof.Laws.CommandWord
end

