-- ==== Sys2Proof/Laws/Run.lean ====
section
/-! SUPPORT. Runs one step at a time, and that no command's step looks at the host's side: a run of the core is the same
under any agenda to come and after any last read. -/

namespace Sys2Proof.Machine

/-- A run of `n + 1` steps is one step and a run of `n`. -/
theorem run_succ (n : Nat) (s : State) :
    Sys2Proof.core.run (n + 1) s =
      match step s with
      | .next t => Sys2Proof.core.run n t
      | .fault f => .fault f
      | .refused r => .refused r := by
  refine (Host.Core.run.eq_2 Sys2Proof.core s n).trans ?_
  rw [show Sys2Proof.core.step s = step s from rfl]
  cases step s <;> rfl

theorem reaches_succ {n : Nat} {s t u : State} (h : step s = .next t) : Reaches (n + 1) s u ↔ Reaches n t u := by
  unfold Reaches
  rw [run_succ, h]

/-- A state with other host actions to come and another last read. -/
abbrev State.withHost (a : List Move) (r : Option Reading) (s : State) : State := { s with agenda := a, readData := r }

theorem drainOn_withHost (b : Byte) (a r s) : State.drainOn b (State.withHost a r s) = (s.drainOn b).withHost a r := by
  unfold State.drainOn
  split <;> rfl

theorem encodeUnsignedAccepted_withHost (x c a r s) :
    encodeUnsignedAccepted x c (State.withHost a r s) = (encodeUnsignedAccepted x c s).withHost a r := by
  simp only [encodeUnsignedAccepted]
  split <;> rfl

theorem encodeSignedAccepted_withHost (x c a r s) :
    encodeSignedAccepted x c (State.withHost a r s) = (encodeSignedAccepted x c s).withHost a r := by
  simp only [encodeSignedAccepted]
  split <;> rfl

theorem decodeUnsignedSupplied_withHost (x sh b a r s) :
    decodeUnsignedSupplied x sh b (State.withHost a r s) = (decodeUnsignedSupplied x sh b s).withHost a r := by
  simp only [decodeUnsignedSupplied]
  split
  · exact drainOn_withHost ..
  · split <;> rfl

theorem decodeSignedSupplied_withHost (x sh b a r s) :
    decodeSignedSupplied x sh b (State.withHost a r s) = (decodeSignedSupplied x sh b s).withHost a r := by
  simp only [decodeSignedSupplied]
  split
  · exact drainOn_withHost ..
  · split <;> rfl

theorem startEncode_withHost {i s t a r} (h : startEncode i s = .next t) :
    startEncode i (s.withHost a r) = .next (t.withHost a r) := by
  unfold startEncode at *
  split at h <;> cases h
  simp_all only
  rfl

theorem writeRequest_withHost {b f s t a r} (hf : ∀ s, f (State.withHost a r s) = (f s).withHost a r)
    (h : writeRequest b f s = .next t) : writeRequest b f (s.withHost a r) = .next (t.withHost a r) := by
  obtain ⟨k, hk, rfl⟩ | ⟨e, k, hk, rfl⟩ | ⟨k, hk, rfl⟩ := writeRequest_next h <;> simp only [writeRequest, hk]
  · rfl
  · exact congrArg _ (hf { s with snk := k })

theorem readRequest_withHost {f s t a r} (hf : ∀ b s, f b (State.withHost a r s) = (f b s).withHost a r)
    (h : readRequest f s = .next t) : readRequest f (s.withHost a r) = .next (t.withHost a r) := by
  obtain ⟨k, hk, rfl⟩ | ⟨e, k, hk, rfl⟩ | ⟨b, k, hk, rfl⟩ := readRequest_next h <;> simp only [readRequest, hk]
  · rfl
  · exact congrArg _ (hf _ { s with src := k, b := some _ })

theorem drainRequest_withHost {s t a r} (h : drainRequest s = .next t) :
    drainRequest (s.withHost a r) = .next (t.withHost a r) := by
  obtain ⟨l, hl, ⟨hc, rfl⟩ | ⟨hc, h⟩⟩ := drainRequest_next h <;> simp only [drainRequest, hl, hc]
  · rfl
  · exact readRequest_withHost (fun _ _ => drainOn_withHost ..) h

/-- No command's step reads or writes the agenda or the host's last read. -/
theorem exec_withHost {i s t a r} (h : exec i s = .next t) : exec i (s.withHost a r) = .next (t.withHost a r) := by
  cases i with
  | encU =>
    obtain ⟨h0, h⟩ | ⟨h0, x, c, hv, hc, h⟩ := execEncU_next h <;> simp only [exec, execEncU, h0]
    · exact startEncode_withHost h
    · simp only [hv, hc]
      exact writeRequest_withHost (fun _ => encodeUnsignedAccepted_withHost ..) h
  | encS =>
    obtain ⟨h0, h⟩ | ⟨h0, x, c, hv, hc, h⟩ := execEncS_next h <;> simp only [exec, execEncS, h0]
    · exact startEncode_withHost h
    · simp only [hv, hc]
      exact writeRequest_withHost (fun _ => encodeSignedAccepted_withHost ..) h
  | decU =>
    obtain ⟨h0, h⟩ | ⟨h0, x, c, hv, hc, h⟩ | ⟨h0, h⟩ := execDecU_next h <;> simp only [exec, execDecU, h0]
    · cases h; rfl
    · simp only [hv, hc]
      exact readRequest_withHost (fun _ _ => decodeUnsignedSupplied_withHost ..) h
    · exact drainRequest_withHost h
  | decS =>
    obtain ⟨h0, h⟩ | ⟨h0, x, c, hv, hc, h⟩ | ⟨h0, h⟩ := execDecS_next h <;> simp only [exec, execDecS, h0]
    · cases h; rfl
    · simp only [hv, hc]
      exact readRequest_withHost (fun _ _ => decodeSignedSupplied_withHost ..) h
    · exact drainRequest_withHost h

/-- Nor does the core's turn. -/
theorem coreMove_withHost {s t a r} (h : coreMove s = .next t) : coreMove (s.withHost a r) = .next (t.withHost a r) := by
  obtain ⟨h0, rfl⟩ | ⟨h0, o, ho, h⟩ := coreMove_next h
  · simp [coreMove, h0]
  · have := exec_withHost (a := a) (r := r) h
    unfold coreMove
    simp only [ho]
    cases hp : s.phase <;> simp_all

/-- The core's turn leaves the agenda as it is. -/
theorem coreMove_agenda {s t : State} (h : coreMove s = .next t) : t.agenda = s.agenda := by
  have h' := coreMove_withHost (a := s.agenda) (r := s.readData) h
  rw [show s.withHost s.agenda s.readData = s from rfl, h] at h'
  injection h' with h'
  rw [h']

end Sys2Proof.Machine
end

