-- ==== Sys2Proof/Tests/Slice0.lean ====
section
/-! SUPPORT. The model's own tests: expected results from spec/95_test_vectors.md and the rules named; and for every
statement with hypotheses, a concrete state and operands that meet all of them. -/

namespace Sys2Proof.Machine.Tests

/-! ### Well-formedness refuses -/

/-- `START` = 0 (R59, H4). -/
theorem test_wf_start_clear : cmdWordWf 0x02 = false := by decide

/-- A reserved bit set (R59, H5). -/
theorem test_wf_reserved_set : cmdWordWf 0x84 = false := by decide

/-- A literal above 2^128 − 1 or below −2^127 (R4). -/
theorem test_wf_literal : literalWf (2 ^ 128) = false ∧ literalWf (-(2 ^ 127) - 1) = false ∧
    (HostLine.encU (2 ^ 128)).wf = false ∧ (HostLine.value (-(2 ^ 127))).wf = true := by decide

/-! ### Decoding: the words of R58, bit by bit; H4 to H6 -/

theorem test_decode_encU : decode 0b10000000 = .ok .encU := rfl
theorem test_decode_encS : decode 0b10000001 = .ok .encS := rfl
theorem test_decode_decU : decode 0b10000010 = .ok .decU := rfl
theorem test_decode_decS : decode 0b10000011 = .ok .decS := rfl
theorem test_decode_start_clear : decode 0x02 = .error .startClear := rfl
theorem test_decode_reserved : decode 0x84 = .error .reservedSet ∧ decode 0xFF = .error .reservedSet := ⟨rfl, rfl⟩
theorem test_decode_table : decodeTableWord 8 0x83 = some .decS ∧ decodeTableWord 8 0x02 = none ∧
    decodeTableWord 16 0x180 = none := by decide

/-! ### One step of each command (traces of programs P1, P2, P3; vectors of sections 2.1 to 2.5) -/

/-- A running encode with `V` = x, `COUNT` = c, on a sink that holds nothing and has the capacity given. -/
def encoding (i : Instr) (x : Word) (c : BitVec 5) (cap : Option Nat) : State :=
  { State.reset with
    phase := .run, op := some i.op, lastOp := i.op, v := some x, count := some c, value := some x,
    snk := Sink.reference [] cap }

/-- A running decode with `ACC` = a, `SHIFT` = sh, on a reference source of the bytes given. -/
def decoding (i : Instr) (a : Word) (sh : BitVec 8) (bs : List Byte) : State :=
  { State.reset with
    phase := .run, op := some i.op, lastOp := i.op, acc := some a, shift := some sh, src := Source.reference bs 0 }

/-- P1, step 1 of `ENC_U`: V 624485 → 4878, byte 0xE5, COUNT 1. -/
theorem test_encU_group : (nextOf (exec .encU (encoding .encU 624485 0 none))).map
    (fun t => (t.v, t.count, t.snk.held)) = some (some 4878, some 1, [0xE5]) := by decide

/-- P1, step 3 of `ENC_U`: the last byte 0x26, `finish(3)`, `STATUS` = 0x02. -/
theorem test_encU_finish : (nextOf (exec .encU (encoding .encU 38 2 none))).map
    (fun t => (t.result, t.status, t.snk.held, t.v)) = some (some 3, 0x02, [0x26], none) := by decide

/-- P3, step 1 of `ENC_S`: V −129 → −2, byte 0xFF, DONE 0. -/
theorem test_encS_group : (nextOf (exec .encS (encoding .encS (BitVec.ofInt 128 (-129)) 0 none))).map
    (fun t => (t.v, t.done, t.count, t.snk.held)) =
      some (some (BitVec.ofInt 128 (-2)), some false, some 1, [0xFF]) := by decide

/-- P3: with the sink full, the write of step 2 is refused and `STATUS` = 0x2C (R75). -/
theorem test_encS_refused : (nextOf (exec .encS (encoding .encS (BitVec.ofInt 128 (-2)) 1 (some 0)))).map
    (fun t => (t.status, t.result, t.phase)) = some (0x2C, none, .idle) := by decide

/-- P1, step 2 of `DEC_U`: 0x8E at shift 7 makes `ACC` 0x765 and `SHIFT` 14. -/
theorem test_decU_group : (nextOf (exec .decU (decoding .decU 0x65 7 [0x8E]))).map
    (fun t => (t.acc, t.shift, t.b, t.src.taken)) = some (some 0x765, some 14, some 0x8E, [0x8E]) := by decide

/-- DU17: group 4 at shift 126 is an overflow in the same step, `STATUS` = 0x46. -/
theorem test_decU_overflow : (nextOf (exec .decU (decoding .decU 0 126 [0x04]))).map
    (fun t => (t.status, t.result, t.acc)) = some (0x46, none, none) := by decide

/-- P3, last step of `DEC_S`: 0x7E at shift 7 is terminal and bits 127:14 are set, giving −129. -/
theorem test_decS_sign : (nextOf (exec .decS (decoding .decS 0x7F 7 [0x7E]))).map
    (fun t => (t.result, t.status)) = some (some (BitVec.ofInt 128 (-129)), 0x62) := by decide

/-- P4: 0x7E at shift 126 gives −2^127, with no sign extension. -/
theorem test_decS_lowest : (nextOf (exec .decS (decoding .decS 0 126 [0x7E]))).map (fun t => t.result) =
    some (some 0x80000000000000000000000000000000) := by decide

/-! ### Host interface (section 2.8) -/

/-- H2, H3: from reset, a read of `RESULT` and an encode fault. -/
theorem test_no_value_faults :
    faultOf (step { State.reset with agenda := [.readResult] }) = some .resultHoldsNoValue ∧
    faultOf (step (State.reset.withFetchWord 8 0x80)) = some .valueHoldsNoValue := by decide

/-- R23: `DEC_S` placed right after reset starts at once, `STATUS` = 0x61; and so does `ENC_S` once `VALUE` is written. -/
theorem test_first_steps :
    (nextOf (step (State.reset.withFetchWord 8 0x83))).map (·.status) = some 0x61 ∧
    (nextOf (step (({ State.reset with value := some 5 } : State).withFetchWord 8 0x81))).map (·.status) =
      some 0x21 := by decide

/-- H5: a reserved command word sets the refusal mark and leaves `STATUS` at 0x00. -/
theorem test_reserved_refused : (nextOf (step { State.reset with agenda := [.writeCmd 0x84] })).map
    (fun t => (t.refusalMark, t.status, t.phase)) = some (true, 0x00, .idle) := by decide

/-- H14 with the pending byte moved: the source's record keeps it and `STATUS` reads 0x00. -/
theorem test_reset_pending : (nextOf (step { decoding .decU 0 0 [0x80, 0x01] with agenda := [.reset true] })).map
    (fun t => (t.status, t.src.taken, t.acc)) = some (0x00, [0x80], none) := by decide

/-- R66: a signed line keeps its value when widened. -/
theorem test_repl_widens : replMoves true none (some (BitVec.ofInt 64 (-1))) =
    [.writeValue (BitVec.ofInt 128 (-1)), .writeCmd 0x81, .wait] := by decide

/-- A 64-bit bus, the more significant word of `VALUE` at the lower address, `CMD` in the second byte lane (R7, R35). -/
def busMap : RegMap where
  bound := [(.cmd, [⟨0, 8, 8⟩]), (.value, [⟨24, 0, 64⟩, ⟨16, 0, 64⟩]), (.status, [⟨8, 0, 8⟩])]
  filler := 0

/-- The word order and the byte lane are the map's; part of `VALUE` is no transaction. -/
theorem test_bus_write : busMap.wf = true ∧
    busWrite busMap [(0, 0x8211)] = some (.writeCmd 0x82) ∧
    busWrite busMap [(16, 1), (24, 5)] = some (.writeValue 0x10000000000000005) ∧
    busWrite busMap [(16, 1)] = none ∧ busRead busMap [8] = some .readStatus ∧
    busReturns busMap [16, 24] (.value 0x10000000000000005) = some [(24, 5), (16, 1)] := by decide

/-- A binding with `CMD` and `STATUS` at address 0, told apart by the direction, and `VALUE` taken in two halves at address 8,
the low half first. -/
def sharedBus : BusBinding where
  issues past a :=
    match past.getLast?.map BusEvent.access, a with
    | _, .read [0] => [.read .status]
    | _, .write [(0, w)] => [.write .cmd (BitVec.ofNat 128 w)]
    | some (.write [(8, low)]), .write [(8, high)] => [.write .value (BitVec.ofNat 128 (low + 2 ^ 64 * high))]
    | _, _ => []
  returns _ _ got := got.map fun r => (0, r.bits.2)

theorem test_bus_parts :
    let first := busAccess sharedBus [] (.write [(8, 5)]) State.reset
    let second := busAccess sharedBus [⟨.write [(8, 5)], []⟩] (.write [(8, 1)]) State.reset
    first = .next (State.reset, ⟨.write [(8, 5)], []⟩, []) ∧
    second = .next ({ State.reset with value := some 0x10000000000000005 }, ⟨.write [(8, 1)], []⟩, []) := ⟨rfl, rfl⟩

/-- A map whose pieces do not make up a register, and one that uses an address twice, are ill formed. -/
theorem test_wf_bus : (RegMap.mk [(.value, [⟨0, 0, 64⟩])] 0).wf = false ∧
    (RegMap.mk [(.cmd, [⟨0, 0, 8⟩]), (.status, [⟨0, 8, 8⟩])] 0).wf = false := by decide

/-- R63, R64: a leading `-` is fatal for `encode-unsigned`; the argument of a decode verb is the content of the source. -/
theorem test_front_end : (FrontEndCall.encodeUnsigned (-1)).moves = none ∧
    (FrontEndCall.encodeUnsigned (2 ^ 128)).moves = none ∧
    (FrontEndCall.decodeUnsigned [0xE5, 0x26]).moves =
      some [.connectSource (Source.reference [0xE5, 0x26] 0), .writeCmd 0x82, .wait] := by decide

/-- The format of section 2.1 and 2.2: EU14, ES20. -/
theorem test_format : unsignedEncoding 624485 = [0xE5, 0x8E, 0x26] ∧
    signedEncoding (BitVec.ofInt 128 (-123456)) = [0xC0, 0xBB, 0x78] := by decide

/-! ### Witnesses: each statement's hypotheses are met together -/

/-- An idle core on a reference source and an unbounded sink, with `VALUE` and the agenda given. -/
def idleWith (x : Option Word) (bs : List Byte) (agenda : List Move) : State :=
  { State.reset with value := x, src := Source.reference bs 0, snk := Sink.reference [] none, agenda := agenda }

/-- A draining decode whose last byte was 0x80. -/
def draining (i : Instr) (bs : List Byte) : State :=
  { decoding i 0 126 bs with phase := .drain, b := some 0x80 }

/-- 18 bytes 0x80 and the bytes given. -/
def eighteen (bs : List Byte) : List Byte := List.replicate 18 0x80 ++ bs

theorem witness_DecodeOfEncode : Instr.wf .decS = true := by decide

theorem witness_CommandWordsDecode : decode 0x83 = .ok .decS := rfl

theorem witness_StepRunsWrittenCommand :
    let s := idleWith (some 5) [] [.writeCmd 0x80, .wait]
    s.phase = .idle ∧ s.agenda = [.writeCmd 0x80, .wait] ∧ decode 0x80 = .ok .encU := ⟨rfl, rfl, rfl⟩

theorem witness_StepRunsLatchedCommand :
    (let s := encoding .encU 5 0 none;
      s.phase ≠ .idle ∧ s.op = some 0b00 ∧ s.agenda = []) ∧
    (let s := { decoding .decS 0 0 [] with agenda := [.coreStep] };
      s.phase ≠ .idle ∧ s.op = some 0b11 ∧ s.agenda = [.coreStep]) ∧
    (let s := { decoding .decU 0 0 [] with agenda := [.wait] };
      s.phase ≠ .idle ∧ s.op = some 0b10 ∧ s.agenda = [.wait]) ∧
    ((idleWith none [] []).phase = .idle ∧ (idleWith none [] [.coreStep]).agenda = [.coreStep] ∧
      (idleWith none [] [.wait]).agenda = [.wait]) := by decide

theorem witness_PlacedWordRunsNext : State.reset.phase = .idle ∧ decodeTableWord 8 0x82 = some .decU := by decide

theorem witness_CmdWritesThatStartNothing :
    (idleWith none [] [.writeCmd 0x02]).agenda = [.writeCmd 0x02] ∧ (0x02 : Byte).getLsbD 7 = false ∧
    (0x84 : Byte).getLsbD 7 = true ∧ (0x84 : Byte).extractLsb' 2 5 ≠ 0 ∧
    (0x83 : Byte).getLsbD 7 = true ∧ (0x83 : Byte).extractLsb' 2 5 = 0 := by decide

theorem witness_StartWhileBusyRefused :
    let s := { decoding .decU 0 0 [] with agenda := [.writeCmd 0x83] }
    s.phase ≠ .idle ∧ s.agenda = [.writeCmd 0x83] ∧ (0x83 : Byte).getLsbD 7 = true := by decide

theorem witness_StartInitialisesCommand :
    (let s := idleWith (some 5) [] [.writeCmd (encode .encS)];
      s.phase = .idle ∧ s.agenda = [.writeCmd (encode .encS)] ∧ s.value = some 5) ∧
    (let s := idleWith none [] [.writeCmd (encode .decU)];
      s.phase = .idle ∧ s.agenda = [.writeCmd (encode .decU)]) := by decide

theorem witness_ValueWithoutValueFaults :
    State.reset.value = none ∧ State.reset.phase = .idle ∧ (idleWith none [] [.readValue]).value = none ∧
    (idleWith none [] [.readValue]).agenda = [.readValue] := by decide

/-- The four answers of a sink to the byte of `V` = 128, and the accepting one to that of `V` = 127. -/
theorem witness_EncodeUnsignedRequest :
    let s := encoding .encU 128 0 none
    s.phase = .run ∧ s.v = some 128 ∧ s.count = some 0 ∧
    (0x80 : Byte) = BitVec.ofNat 8 ((128 : Word).toNat % 128 + if 128 ≤ (128 : Word).toNat then 128 else 0) ∧
    (s.snk.write 0x80).1 = some .ok ∧ 128 ≤ (128 : Word).toNat ∧
    ((Sink.mk [] [] .waits).write 0x80).1 = none ∧
    ((Sink.mk [] [.fail .refused] .waits).write 0x80).1 = some (.fail .refused) ∧
    ((Sink.mk [] [.fail .other] .waits).write 0x80).1 = some (.fail .other) ∧
    (0x7F : Byte) = BitVec.ofNat 8 ((127 : Word).toNat % 128 + if 128 ≤ (127 : Word).toNat then 128 else 0) ∧
    (127 : Word).toNat < 128 := by decide

/-- `ENC_S` at both ends of the terminal range: 63 and −64 are last, 64 is not. -/
theorem witness_EncodeSignedRequest :
    let s := encoding .encS 64 0 none
    s.phase = .run ∧ s.v = some 64 ∧ s.count = some 0 ∧
    (0xC0 : Byte) = BitVec.ofNat 8 (((64 : Word).toInt % 128).toNat +
      if -64 ≤ (64 : Word).toInt ∧ (64 : Word).toInt ≤ 63 then 0 else 128) ∧
    (s.snk.write 0xC0).1 = some .ok ∧ ¬ (-64 ≤ (64 : Word).toInt ∧ (64 : Word).toInt ≤ 63) ∧
    (0x40 : Byte) = BitVec.ofNat 8 (((BitVec.ofInt 128 (-64) : Word).toInt % 128).toNat +
      if -64 ≤ (BitVec.ofInt 128 (-64) : Word).toInt ∧ (BitVec.ofInt 128 (-64) : Word).toInt ≤ 63 then 0 else 128) ∧
    (0x3F : Byte) = BitVec.ofNat 8 (((63 : Word).toInt % 128).toNat +
      if -64 ≤ (63 : Word).toInt ∧ (63 : Word).toInt ≤ 63 then 0 else 128) ∧
    (0xBF : Byte) = BitVec.ofNat 8 (((BitVec.ofInt 128 (-65) : Word).toInt % 128).toNat +
      if -64 ≤ (BitVec.ofInt 128 (-65) : Word).toInt ∧ (BitVec.ofInt 128 (-65) : Word).toInt ≤ 63 then 0 else 128) ∧
    ((Sink.mk [] [] .waits).write 0xC0).1 = none ∧
    ((Sink.mk [] [.fail .refused] .waits).write 0xC0).1 = some (.fail .refused) ∧
    ((Sink.mk [] [.fail .other] .waits).write 0xC0).1 = some (.fail .other) := by decide

/-- `DEC_U` at shift 126: 0x03 is permitted, 0x04 is not and terminal, 0x80 is not and goes to the drain. -/
theorem witness_DecodeUnsignedRequest :
    let s := decoding .decU 0 126 [0x03]
    s.phase = .run ∧ s.acc = some 0 ∧ s.shift = some 126 ∧ s.src.read.1 = some (.byte 0x03) ∧
    (0x03 : Byte) ∈ permitU s.config.boundarySet ∧ (0x04 : Byte) ∉ permitU s.config.boundarySet ∧
    (0x80 : Byte) ∉ permitU s.config.boundarySet ∧
    (decoding .decU 0 126 [0x04]).src.read.1 = some (.byte 0x04) ∧
    (decoding .decU 0 126 [0x80]).src.read.1 = some (.byte 0x80) ∧
    (decoding .decU 0 119 [0x80]).src.read.1 = some (.byte 0x80) ∧
    (decoding .decU 0 0 []).src.read.1 = some (.fail .eof) ∧
    (Source.mk [] [] .waits).read.1 = none ∧
    (Source.mk [] [.fail .other] .waits).read.1 = some (.fail .other) := by decide

theorem witness_DecodeSignedRequest :
    let s := decoding .decS 0 126 [0x7E]
    s.phase = .run ∧ s.acc = some 0 ∧ s.shift = some 126 ∧ s.src.read.1 = some (.byte 0x7E) ∧
    (0x7E : Byte) ∈ permitS s.config.boundarySet ∧ (0x02 : Byte) ∉ permitS s.config.boundarySet ∧
    (0xFF : Byte) ∉ permitS s.config.boundarySet ∧
    (decoding .decS 0 126 [0x02]).src.read.1 = some (.byte 0x02) ∧
    (decoding .decS 0 126 [0xFF]).src.read.1 = some (.byte 0xFF) ∧
    (decoding .decS 0 119 [0xFF]).src.read.1 = some (.byte 0xFF) ∧
    (decoding .decS 0 0 []).src.read.1 = some (.fail .eof) ∧
    (Source.mk [] [] .waits).read.1 = none ∧
    (Source.mk [] [.fail .other] .waits).read.1 = some (.fail .other) := by decide

theorem witness_DrainRequest :
    let s := draining .decS [0x80, 0x7F]
    s.phase = .drain ∧ s.b = some 0x80 ∧ 128 ≤ (0x80 : Byte).toNat ∧ s.src.read.1 = some (.byte 0x80) ∧
    (draining .decU [0x7F]).src.read.1 = some (.byte 0x7F) ∧
    (draining .decU []).src.read.1 = some (.fail .eof) ∧
    (Source.mk [] [] .waits).read.1 = none ∧
    (Source.mk [] [.fail .other] .waits).read.1 = some (.fail .other) := by decide

theorem witness_CommandStepFrame :
    (nextOf (exec .encU (encoding .encU 5 0 none))).isSome = true ∧
    (nextOf (exec .encS (encoding .encS 64 0 none))).isSome = true ∧
    (nextOf (exec .decU (decoding .decU 0 0 [0x80]))).isSome = true ∧
    (nextOf (exec .decS (draining .decS [0x80]))).isSome = true ∧
    (nextOf (exec .encS (idleWith (some 5) [] []))).isSome = true ∧
    (draining .decS [0x80]).b = some 0x80 ∧ 128 ≤ (0x80 : Byte).toNat ∧
    (nextOf (exec .decU { draining .decU [0x80] with b := some 0x00 })).isSome = true ∧
    (0x00 : Byte).toNat < 128 := by decide

theorem witness_RequestMovesOneByteOrNone :
    (Source.reference [0x01] 0).read = (some (.byte 0x01), Source.reference [0x01] 1) ∧
    (Source.reference [] 0).read = (some (.fail .eof), Source.reference [] 0) ∧
    (Source.mk [] [] .waits).read = (none, Source.mk [] [] .waits) ∧
    (Sink.reference [] none).write 0x01 = (some .ok, Sink.reference [0x01] none) ∧
    (Sink.reference [] (some 0)).write 0x01 = (some (.fail .refused), Sink.reference [] (some 0)) ∧
    (Sink.mk [] [] .waits).write 0x01 = (none, Sink.mk [] [] .waits) := by decide

theorem witness_MovedBytesStayMoved :
    (nextOf (step (decoding .decU 0 0 [0x80]))).map (·.src.taken) = some [0x80] ∧
    (nextOf (step (encoding .encU 5 0 none))).map (·.snk.held) = some [0x05] := by decide

theorem witness_RefusalMarkNeverCleared :
    (nextOf (step { State.reset with refusalMark := true, agenda := [.reset false] })).isSome = true ∧
    (nextOf (step (idleWith none [] [.writeCmd 0x84]))).map (·.refusalMark) = some true := by decide

theorem witness_OnlyHostWritesValue :
    (nextOf (step (idleWith none [] [.writeValue 5]))).map (·.value) = some (some 5) ∧
    (nextOf (step (idleWith (some 5) [] [.reset true]))).map (·.value) = some none := by decide

theorem witness_ValueWriteDuringCommandHarmless :
    (let s := { encoding .encU 300 0 none with agenda := [.writeValue 5] };
      s.phase ≠ .idle ∧ s.agenda = [.writeValue 5]) ∧
    (nextOf (exec .encU (encoding .encU 300 0 none))).isSome = true := by decide

theorem witness_StatusChangesOnlyAtStartAndEnd :
    (nextOf (step (idleWith none [] [.writeCmd 0x82]))).map (·.lastOp) = some 0b10 ∧
    (nextOf (step (encoding .encU 5 0 none))).map (·.code) = some .ok ∧
    (nextOf (step { encoding .encS 5 0 none with agenda := [.reset false] })).map (·.lastOp) = some 0b00 := by decide

theorem witness_OnlyResetEndsEarly :
    (encoding .encU 5 0 none).phase ≠ .idle ∧
    (nextOf (step (encoding .encU 5 0 none))).map (·.phase) = some .idle ∧
    (nextOf (step { encoding .encS 5 0 (some 0) with agenda := [.coreStep] })).map (·.phase) = some .idle ∧
    (nextOf (step { decoding .decU 0 0 [0x7F] with agenda := [.wait] })).map (·.phase) = some .idle ∧
    (nextOf (step (draining .decS [0x00]))).map (·.phase) = some .idle ∧
    (nextOf (step { draining .decU [] with agenda := [.reset false] })).map (·.phase) = some .idle := by decide

theorem witness_BorrowedStreamHasNoOtherUser :
    (let s := { decoding .decU 0 0 [] with agenda := [.connectSource (Source.reference [0x01] 0)] };
      s.agenda = [.connectSource (Source.reference [0x01] 0)] ∧ s.phase ≠ .idle ∧ s.op = some 0b10) ∧
    (let s := { encoding .encU 5 0 none with agenda := [.connectSource (Source.reference [0x01] 0)] };
      s.agenda = [.connectSource (Source.reference [0x01] 0)] ∧ s.op = some 0b00) ∧
    (let s := { encoding .encS 5 0 none with agenda := [.connectSink (Sink.reference [] none)] };
      s.agenda = [.connectSink (Sink.reference [] none)] ∧ s.phase ≠ .idle ∧ s.op = some 0b01) ∧
    (idleWith none [] [.connectSink (Sink.reference [] none)]).phase = .idle := by decide

theorem witness_HostRegisterAccess :
    (idleWith none [] [.readCmd]).agenda = [.readCmd] ∧ (idleWith none [] [.readStatus]).agenda = [.readStatus] ∧
    (idleWith (some 5) [] [.readValue]).value = some 5 ∧
    ({ State.reset with result := some 3, agenda := [.readResult] } : State).result = some 3 ∧
    (idleWith none [] [.writeStatus 0xFF]).agenda = [.writeStatus 0xFF] ∧
    (idleWith none [] [.writeResult 5]).agenda = [.writeResult 5] ∧
    (idleWith none [] [.writeValue 5]).agenda = [.writeValue 5] := by decide

theorem witness_ResultReadOutsideOkFaults :
    (let s := idleWith none [] [.readResult];
      s.Inv ∧ s.agenda = [.readResult] ∧ s.code ≠ .ok) ∧
    (let s := { decoding .decU 0 0 [] with agenda := [.readResult] };
      s.Inv ∧ s.agenda = [.readResult] ∧ s.phase ≠ .idle) := by
  refine ⟨⟨?_, rfl, by decide⟩, ⟨?_, rfl, by decide⟩⟩
  · simp [State.Inv, State.idleInv, idleWith, State.reset]
  · exact ⟨⟨rfl, rfl, rfl, rfl⟩, .inr ⟨.inl rfl, rfl, rfl, rfl, 0, 0, 0, by simp [decoding, State.reset]⟩⟩

theorem witness_ResetAbandonsCommand :
    (let s := { draining .decS [0x80] with agenda := [.reset true] };
      s.agenda = [.reset true] ∧ s.phase ≠ .idle ∧ s.op = some 0b11) ∧
    (let s := { encoding .encU 5 0 none with agenda := [.reset true] };
      s.phase ≠ .idle ∧ s.op = some 0b00 ∧ s.v = some 5) ∧
    (let s := { encoding .encS 5 0 none with agenda := [.reset false] };
      s.agenda = [.reset false] ∧ s.op = some 0b01 ∧ s.v = some 5) := by decide

theorem witness_StepKeepsInvariant :
    let s := encoding .encU 300 0 none
    s.Inv ∧ (nextOf (step s)).isSome = true := by
  refine ⟨⟨⟨rfl, rfl, rfl, rfl⟩, .inl ⟨rfl, rfl, rfl, 300, 0, rfl, rfl, by decide, .inl ⟨rfl, rfl, by decide⟩⟩⟩,
    by decide⟩

theorem witness_CoreTurnEndsInOneOutcome :
    let s := draining .decS [0x00]
    s.Inv ∧ s.phase ≠ .idle := by
  refine ⟨⟨⟨rfl, rfl, rfl, rfl⟩, .inr rfl, rfl, rfl, rfl, ⟨0, rfl, by decide⟩, rfl, 0x80, rfl, by decide⟩, by decide⟩

theorem witness_UnsignedEncodingIsMinimal :
    isEncoding [0x80, 0x00] = true ∧ unsignedValue [0x80, 0x00] = (0 : Word).toNat ∧
    (127 : Word).toNat < 2 ^ (7 * 1) := by decide

theorem witness_SignedEncodingIsMinimal :
    isEncoding [0xFF, 0x7F] = true ∧ signedValue [0xFF, 0x7F] = (BitVec.ofInt 128 (-1) : Word).toInt ∧
    -(2 ^ (7 * 1 - 1) : Int) ≤ (BitVec.ofInt 128 (-64) : Word).toInt ∧
    (BitVec.ofInt 128 63 : Word).toInt ≤ 2 ^ (7 * 1 - 1) - 1 := by decide

theorem witness_PermittedBytesAtBoundary : (0x7E : Byte) ∈ permitS .derived ∧ (0x03 : Byte) ∈ permitU .derived := by
  decide

theorem witness_GroupAndSignBitsLand : (0 : Nat) < 128 ∧ (127 : Nat) < 128 := by decide

theorem witness_ReferenceStreams :
    0 < [(0x01 : Byte)].length ∧ ([] : List Byte).length ≤ 0 ∧ ([] : List Byte).length < 1 := by decide

theorem witness_EncodeUnsignedWritesEncoding :
    let s := idleWith (some 624485) [] [.writeCmd (encode .encU)]
    s.starting .encU ∧ s.value = some 624485 ∧ (s.snk.acceptAll (unsignedEncoding 624485)).isSome = true :=
  ⟨⟨rfl, rfl⟩, rfl, by decide⟩

theorem witness_EncodeSignedWritesEncoding :
    let s := idleWith (some (BitVec.ofInt 128 (-129))) [] [.writeCmd (encode .encS)]
    s.starting .encS ∧ s.value = some (BitVec.ofInt 128 (-129)) ∧
    (s.snk.acceptAll (signedEncoding (BitVec.ofInt 128 (-129)))).isSome = true :=
  ⟨⟨rfl, rfl⟩, rfl, by decide⟩

theorem witness_EncodeLoopState :
    let s := idleWith (some 624485) [] [.writeCmd (encode .encU)]
    s.starting .encU ∧ s.value = some 624485 ∧ 2 < (encodingOf .encU 624485).length ∧
    (s.snk.acceptAll ((encodingOf .encU 624485).take 2)).isSome = true :=
  ⟨⟨rfl, rfl⟩, rfl, by decide, by decide⟩

/-- EF3 with `ENC_U`, and the sink failing on its first byte with `ENC_S`. -/
theorem witness_EncodeSinkFailure :
    (let s := { idleWith (some 624485) [] [.writeCmd (encode .encU)] with snk := Sink.reference [] (some 2) };
      s.starting .encU ∧ s.value = some 624485 ∧ ∃ h : 2 < (encodingOf .encU 624485).length, ∃ k,
        s.snk.acceptAll ((encodingOf .encU 624485).take 2) = some k ∧
        k.write (encodingOf .encU 624485)[2] = (some (.fail .refused), k)) ∧
    (let s := { idleWith (some 0) [] [.writeCmd (encode .encS)] with snk := Sink.mk [] [.fail .other] .waits };
      s.starting .encS ∧ s.value = some 0 ∧ ∃ h : 0 < (encodingOf .encS 0).length, ∃ k,
        s.snk.acceptAll ((encodingOf .encS 0).take 0) = some k ∧
        k.write (encodingOf .encS 0)[0] = (some (.fail .other), Sink.mk [] [] .waits)) :=
  ⟨⟨⟨rfl, rfl⟩, rfl, by decide, Sink.reference [0xE5, 0x8E] (some 2), by decide, by decide⟩,
   ⟨⟨rfl, rfl⟩, rfl, by decide, Sink.mk [] [.fail .other] .waits, by decide, by decide⟩⟩

theorem witness_DecodeReturnsValue :
    let s := idleWith none (eighteen [0x7E]) [.writeCmd (encode .decS)]
    s.starting .decS ∧ accepted (permitOf .decS s.config.boundarySet) (eighteen [0x7E]) = true ∧
    (s.src.supplyAll (eighteen [0x7E])).isSome = true :=
  ⟨⟨rfl, rfl⟩, by decide, by decide⟩

/-- DU20: the drain reads two more bytes. -/
theorem witness_DecodeOverflowDrains :
    let s := idleWith none (eighteen [0x81, 0x80, 0x00]) [.writeCmd (encode .decU)]
    s.starting .decU ∧ overflows (permitOf .decU s.config.boundarySet) (eighteen [0x81, 0x80, 0x00]) = true ∧
    (s.src.supplyAll (eighteen [0x81, 0x80, 0x00])).isSome = true :=
  ⟨⟨rfl, rfl⟩, by decide, by decide⟩

/-- DU25 in `RUN`, DU21 in `DRAIN`. -/
theorem witness_DecodeSourceFailure :
    (let s := idleWith none [0xE5, 0x8E] [.writeCmd (encode .decU)];
      s.starting .decU ∧ (∀ b ∈ [(0xE5 : Byte), 0x8E], b.getLsbD 7 = true) ∧
      s.src.supplyAll [0xE5, 0x8E] = some (Source.reference [0xE5, 0x8E] 2) ∧
      (Source.reference [0xE5, 0x8E] 2).read = (some (.fail .eof), Source.reference [0xE5, 0x8E] 2)) ∧
    (let s := idleWith none (eighteen [0x80]) [.writeCmd (encode .decU)];
      s.starting .decU ∧ (∀ b ∈ eighteen [0x80], b.getLsbD 7 = true) ∧
      s.src.supplyAll (eighteen [0x80]) = some (Source.reference (eighteen [0x80]) 19) ∧
      (Source.reference (eighteen [0x80]) 19).read =
        (some (.fail .eof), Source.reference (eighteen [0x80]) 19)) :=
  ⟨⟨⟨rfl, rfl⟩, by decide, by decide, by decide⟩, ⟨⟨rfl, rfl⟩, by decide, by decide, by decide⟩⟩

/-- A source that withholds its third answer, and one that repeats 0x80 past the 19th byte. -/
theorem witness_DecodeRunsOnContinuationBytes :
    (let s := { idleWith none [] [.writeCmd (encode .decS)] with src := Source.mk [] [.byte 0x80, .byte 0x81] .waits };
      s.starting .decS ∧ (∀ b ∈ [(0x80 : Byte), 0x81], b.getLsbD 7 = true) ∧
      s.src.supplyAll [0x80, 0x81] = some (Source.mk [0x80, 0x81] [] .waits) ∧
      (Source.mk [0x80, 0x81] [] .waits).read = (none, Source.mk [0x80, 0x81] [] .waits)) ∧
    (let s := { idleWith none [] [.writeCmd (encode .decU)] with src := Source.mk [] [] (.repeats 0x80) };
      s.starting .decU ∧ (∀ b ∈ eighteen [0x80], b.getLsbD 7 = true) ∧
      (s.src.supplyAll (eighteen [0x80])).isSome = true) :=
  ⟨⟨⟨rfl, rfl⟩, by decide, by decide, by decide⟩, ⟨⟨rfl, rfl⟩, by decide, by decide⟩⟩

/-- Program P1's round trip of 624485: the encode's run, and the decode's hypotheses. -/
theorem witness_RoundTripDerived :
    let s := idleWith (some 624485) [] [.writeCmd (encode .encU)]
    let d := idleWith none [0xE5, 0x8E, 0x26] [.writeCmd (encode .decU)]
    s.starting .encU ∧ s.value = some 624485 ∧
    s.snk.acceptAll (encodingOf .encU 624485) = some (Sink.reference [0xE5, 0x8E, 0x26] none) ∧
    4 = 1 + (encodingOf .encU 624485).length ∧
    (nextOf (Sys2Proof.core.run 4 s)).map (·.snk.held) = some [0xE5, 0x8E, 0x26] ∧
    d.starting .decU ∧ d.config.boundarySet = .derived ∧
    (d.src.supplyAll [0xE5, 0x8E, 0x26]).isSome = true :=
  ⟨⟨rfl, rfl⟩, rfl, by decide, by decide, by decide, ⟨rfl, rfl⟩, rfl, by decide⟩

/-- W5: 82 01 01 decodes as 130, then 1; and an overflow before a value (P2's shape). -/
theorem witness_BackToBackDecodes :
    (let s := idleWith none [0x82, 0x01, 0x01] [.writeCmd (encode .decU)];
      s.starting .decU ∧ accepted (permitOf .decU s.config.boundarySet) [0x82, 0x01] = true ∧
      accepted (permitOf .decU s.config.boundarySet) [0x01] = true ∧
      (s.src.supplyAll ([0x82, 0x01] ++ [0x01])).isSome = true) ∧
    (let s := idleWith none (eighteen [0x04, 0x64]) [.writeCmd (encode .decS)];
      s.starting .decS ∧ overflows (permitOf .decS s.config.boundarySet) (eighteen [0x04]) = true ∧
      accepted (permitOf .decU s.config.boundarySet) [0x64] = true ∧
      (s.src.supplyAll (eighteen [0x04] ++ [0x64])).isSome = true) :=
  ⟨⟨⟨rfl, rfl⟩, by decide, by decide, by decide⟩, ⟨⟨rfl, rfl⟩, by decide, by decide, by decide⟩⟩

/-- Both sides of each bound of R95. -/
theorem witness_RoundTripLiteral :
    (let s := { State.resetWith { boundarySet := .literal } with
        agenda := [.writeCmd (encode .decU)], src := Source.reference (unsignedEncoding 0x80000000000000000000000000000000) 0 };
      s.config.boundarySet = .literal ∧ s.starting .decU ∧
      (s.src.supplyAll (unsignedEncoding 0x80000000000000000000000000000000)).isSome = true ∧ 2 ^ 127 ≤ (0x80000000000000000000000000000000 : Word).toNat) ∧
    (let s := { State.resetWith { boundarySet := .literal } with
        agenda := [.writeCmd (encode .decS)], src := Source.reference (signedEncoding 0x40000000000000000000000000000000) 0 };
      s.config.boundarySet = .literal ∧ s.starting .decS ∧
      (s.src.supplyAll (signedEncoding 0x40000000000000000000000000000000)).isSome = true ∧ 2 ^ 126 ≤ (0x40000000000000000000000000000000 : Word).toInt) ∧
    (0x7fffffffffffffffffffffffffffffff : Word).toNat < 2 ^ 127 ∧
    (0xbfffffffffffffffffffffffffffffff : Word).toInt ≤ -(2 ^ 126) - 1 ∧
    (-(2 ^ 126) ≤ (0xc0000000000000000000000000000000 : Word).toInt ∧
      (0xc0000000000000000000000000000000 : Word).toInt < 2 ^ 126) :=
  ⟨⟨rfl, ⟨rfl, rfl⟩, by decide, by decide⟩, ⟨rfl, ⟨rfl, rfl⟩, by decide, by decide⟩, by decide, by decide, by decide,
    by decide⟩

theorem witness_EncodePseudoInstructionRuns :
    (let s := idleWith none [] (HostLine.expand (.encU 624485) ++ [.readResult]);
      s.phase = .idle ∧ literalWf 624485 = true ∧ s.agenda = HostLine.expand (.encU 624485) ++ [.readResult] ∧
      (s.snk.acceptAll (unsignedEncoding (BitVec.ofInt 128 624485))).isSome = true) ∧
    (let s := idleWith none [] (HostLine.expand (.encS (-129)) ++ []);
      s.phase = .idle ∧ literalWf (-129) = true ∧ s.agenda = HostLine.expand (.encS (-129)) ++ [] ∧
      (s.snk.acceptAll (signedEncoding (BitVec.ofInt 128 (-129)))).isSome = true) :=
  ⟨⟨rfl, by decide, rfl, by decide⟩, ⟨rfl, by decide, rfl, by decide⟩⟩

/-- DS9, and DU20 with the drain reading two more bytes. -/
theorem witness_DecodePseudoInstructionRuns :
    (let s := idleWith none [0xFF, 0x7E] (HostLine.expand .decS ++ [.readResult]);
      s.phase = .idle ∧ s.agenda = HostLine.expand .decS ++ [.readResult] ∧
      (s.src.supplyAll [0xFF, 0x7E]).isSome = true ∧
      accepted (permitOf .decS s.config.boundarySet) [0xFF, 0x7E] = true) ∧
    (let s := idleWith none (eighteen [0x81, 0x80, 0x00]) (HostLine.expand .decU ++ []);
      s.phase = .idle ∧ s.agenda = HostLine.expand .decU ++ [] ∧
      (s.src.supplyAll (eighteen [0x81, 0x80, 0x00])).isSome = true ∧
      overflows (permitOf .decU s.config.boundarySet) (eighteen [0x81, 0x80, 0x00]) = true) :=
  ⟨⟨rfl, rfl, by decide, by decide⟩, ⟨rfl, rfl, by decide, by decide⟩⟩

/-- DU1: the decode of 00 first ends after two steps. -/
theorem witness_WaitSeesTheEnding :
    let s := idleWith none [0x00] [.writeCmd (encode .decU)]
    s.starting .decU ∧
    (∃ t, Reaches 2 s t ∧ t.phase = .idle) ∧ (∀ m u, 0 < m → m < 2 → Reaches m s u → u.phase ≠ .idle) := by
  refine ⟨⟨rfl, rfl⟩, ⟨_, rfl, rfl⟩, ?_⟩
  intro m u h1 h2 hr
  obtain rfl : m = 1 := by omega
  cases hr
  decide

theorem witness_FrontEndVerbsCallOneCommand :
    (FrontEndCall.encodeUnsigned (2 ^ 128 - 1)).wf = true ∧ (FrontEndCall.encodeSigned (-(2 ^ 127))).wf = true ∧
    (FrontEndCall.decodeSigned [0x7F]).wf = true ∧ (FrontEndCall.encodeUnsigned (-1)).wf = false ∧
    (FrontEndCall.encodeUnsigned (2 ^ 128)).moves = none ∧ (FrontEndCall.encodeSigned (2 ^ 127)).moves = none ∧
    (FrontEndCall.encodeSigned (-(2 ^ 127) - 1)).moves = none := by decide

theorem witness_BusBindingCarriesRegisters :
    (let m : RegMap := { busMap with bound := busMap.bound ++ [(.result, [⟨40, 128, 128⟩])] };
      m.wf = true ∧ (.value, [⟨24, 0, 64⟩, ⟨16, 0, 64⟩]) ∈ m.bound ∧ (.result, [⟨40, 128, 128⟩]) ∈ m.bound ∧
      (.cmd, [⟨0, 8, 8⟩]) ∈ m.bound ∧ (.status, [⟨8, 0, 8⟩]) ∈ m.bound) := by decide

theorem witness_BusAccessIsItsTransactions :
    (let s := { State.reset with code := .ok };
      busAccess sharedBus [] (.read [0]) s =
        .next ({ s with readData := some (.status 0x02) }, ⟨.read [0], [.status 0x02]⟩, [(0, 0x02)])) ∧
    busAccess sharedBus [] (.write [(0, 0x80)]) State.reset = .fault .valueHoldsNoValue := ⟨rfl, rfl⟩

theorem witness_ResetCoresBuiltAsGiven : ([({} : Config), { boundarySet := .literal }])[1]? = some { boundarySet := .literal } :=
  rfl

theorem witness_CoresAreIndependent :
    let cores := [idleWith none [] [.writeValue 5], State.reset]
    stepOf 0 cores = .next [{ idleWith none [] [] with value := some 5 }, State.reset] ∧ (1 : Nat) ≠ 0 ∧
    cores[0]? = some (idleWith none [] [.writeValue 5]) :=
  ⟨rfl, by decide, rfl⟩

end Sys2Proof.Machine.Tests
end

/-! # `REG_MAP` and the cores of a system (00_scope.md rule R7): O53, O54 and O55 -/

namespace Sys2Proof.Machine

/-! ### An access on the bus as a run of the machine -/

/-- A register transaction answers a next state or faults. -/
theorem takeMove_regAccess_cases (a : RegAccess) (s : State) :
    (∃ t, takeMove a.move s = .next t) ∨ (∃ f, takeMove a.move s = .fault f) := by
  cases h : takeMove a.move s with
  | next t => exact .inl ⟨t, rfl⟩
  | fault f => exact .inr ⟨f, rfl⟩
  | refused r => exact absurd h ((takeMove_regAccess a s []).2.2 r)

/-- The transactions `as` are the host's next actions. -/
def State.queue (as : List RegAccess) (s : State) : State :=
  { s with agenda := as.map RegAccess.move ++ s.agenda }

@[simp] theorem State.queue_nil (s : State) : s.queue [] = s := rfl

/-- A step on queued transactions is the first of them, and the others stay queued. -/
theorem step_queue_of_next {a : RegAccess} {s t : State} (rest : List RegAccess) (h : takeMove a.move s = .next t) :
    step (s.queue (a :: rest)) = .next (t.queue rest) := by
  obtain ⟨hnext, hagenda, -⟩ := (takeMove_regAccess a s (rest.map RegAccess.move ++ s.agenda)).1 t h
  simp only [State.queue, hagenda]
  exact hnext

theorem step_queue_of_fault {a : RegAccess} {s : State} {f : Fault} (rest : List RegAccess)
    (h : takeMove a.move s = .fault f) : step (s.queue (a :: rest)) = .fault f :=
  (takeMove_regAccess a s _).2.1 f h

/-- A transaction that answers a next state hands over to the ones after it. -/
theorem regAccesses_cons_of_next {a : RegAccess} {s t : State} (rest : List RegAccess) (got : List Reading)
    (h : takeMove a.move s = .next t) :
    ∃ got', regAccesses (a :: rest) s got = regAccesses rest t got' := by
  rw [regAccesses, h]
  cases a <;> exact ⟨_, rfl⟩

theorem regAccesses_cons_of_fault {a : RegAccess} {s : State} {f : Fault} (rest : List RegAccess) (got : List Reading)
    (h : takeMove a.move s = .fault f) : regAccesses (a :: rest) s got = .fault f := by
  rw [regAccesses, h]

/-- Transactions taken at once end where the machine's run on them ends, and reach neither the streams nor the parameters. -/
theorem reaches_of_regAccesses {as : List RegAccess} {s t : State} {got out : List Reading}
    (h : regAccesses as s got = .next (t, out)) :
    Reaches as.length (s.queue as) t ∧ t.src = s.src ∧ t.snk = s.snk ∧ t.config = s.config := by
  induction as generalizing s got with
  | nil => cases h; exact ⟨rfl, rfl, rfl, rfl⟩
  | cons a rest ih =>
    obtain ⟨u, hu⟩ | ⟨f, hf⟩ := takeMove_regAccess_cases a s
    · obtain ⟨got', hcons⟩ := regAccesses_cons_of_next rest got hu
      obtain ⟨hreach, hsrc, hsnk, hconfig⟩ := ih (hcons ▸ h)
      obtain ⟨-, -, usrc, usnk, uconfig⟩ := (takeMove_regAccess a s []).1 u hu
      exact ⟨(reaches_succ (step_queue_of_next rest hu)).2 hreach,
        hsrc.trans usrc, hsnk.trans usnk, hconfig.trans uconfig⟩
    · cases (regAccesses_cons_of_fault rest got hf).symm.trans h

/-- Where one of the transactions faults, so does the machine's run on them. -/
theorem run_of_regAccesses_fault {as : List RegAccess} {s : State} {got : List Reading} {f : Fault}
    (h : regAccesses as s got = .fault f) : Sys2Proof.core.run as.length (s.queue as) = .fault f := by
  induction as generalizing s got with
  | nil => cases h
  | cons a rest ih =>
    rw [List.length_cons, run_succ]
    obtain ⟨u, hu⟩ | ⟨g, hg⟩ := takeMove_regAccess_cases a s
    · obtain ⟨got', hcons⟩ := regAccesses_cons_of_next rest got hu
      rw [step_queue_of_next rest hu]
      exact ih (hcons ▸ h)
    · rw [step_queue_of_fault rest hg]
      cases (regAccesses_cons_of_fault rest got hg).symm.trans h
      rfl

/-- The model refuses no register transaction. -/
theorem regAccesses_ne_refused (as : List RegAccess) (s : State) (got : List Reading) (r : Refusal) :
    regAccesses as s got ≠ .refused r := by
  induction as generalizing s got with
  | nil => exact nofun
  | cons a rest ih =>
    obtain ⟨u, hu⟩ | ⟨f, hf⟩ := takeMove_regAccess_cases a s
    · obtain ⟨got', hcons⟩ := regAccesses_cons_of_next rest got hu
      exact hcons ▸ ih u got'
    · rw [regAccesses_cons_of_fault rest got hf]
      exact nofun

/-- An access answers a next state just where its transactions do; the event records what their reads returned. -/
theorem regAccesses_of_busAccess_next {b : BusBinding} {past : List BusEvent} {a : BusAccess} {s t : State}
    {e : BusEvent} {words : List (Nat × Nat)} (h : busAccess b past a s = .next (t, e, words)) :
    regAccesses (b.issues past a) s [] = .next (t, e.readings) ∧ e.access = a ∧ words = b.returns past a e.readings := by
  unfold busAccess at h
  split at h <;> rename_i hr <;> cases h
  exact ⟨hr, rfl, rfl⟩

theorem regAccesses_of_busAccess_fault {b : BusBinding} {past : List BusEvent} {a : BusAccess} {s : State} {f : Fault}
    (h : busAccess b past a s = .fault f) : regAccesses (b.issues past a) s [] = .fault f := by
  unfold busAccess at h
  split at h <;> rename_i hr <;> cases h
  exact hr

theorem busAccess_ne_refused (b : BusBinding) (past : List BusEvent) (a : BusAccess) (s : State) (r : Refusal) :
    busAccess b past a s ≠ .refused r := by
  intro h
  unfold busAccess at h
  split at h <;> rename_i hr <;> cases h
  exact regAccesses_ne_refused _ _ _ _ hr

/-- Settles O54, by induction on the access's transactions: each is one step of the machine on the queue of them. -/
theorem busAccessIsItsTransactions : Obligations.BusAccessIsItsTransactions := by
  intro b past a s
  dsimp only
  rw [List.length_map]
  refine ⟨?_, ?_, busAccess_ne_refused b past a s⟩
  · intro t e words h
    obtain ⟨htaken, haccess, hwords⟩ := regAccesses_of_busAccess_next h
    obtain ⟨hreach, hframe⟩ := reaches_of_regAccesses htaken
    exact ⟨hreach, haccess, hwords, hframe⟩
  · intro f h
    exact run_of_regAccesses_fault (regAccesses_of_busAccess_fault h)

/-! ### Plain maps of whole registers -/

/-- Looking up the pieces' addresses among the bus words finds each piece its own word, where no address serves two pieces. -/
theorem map_lookup_zip_addr {ps : List BusPiece} {ws : List Nat} (hn : (ps.map BusPiece.addr).Nodup)
    (hl : ws.length = ps.length) :
    (ps.map fun p => (p, (((ps.map BusPiece.addr).zip ws).lookup p.addr).getD 0)) = ps.zip ws := by
  induction ps generalizing ws with
  | nil => rfl
  | cons p ps ih =>
    obtain ⟨w, ws, rfl⟩ := List.exists_cons_of_length_eq_add_one hl
    obtain ⟨hp, hn⟩ := List.nodup_cons.1 hn
    simp only [List.map_cons, List.zip_cons_cons, List.lookup_cons_self, Option.getD_some]
    rw [← ih hn (by simpa using hl)]
    congr 1
    refine List.map_congr_left fun q hq => ?_
    have hne : q.addr ≠ p.addr := fun he => hp (he ▸ List.mem_map_of_mem hq)
    rw [List.lookup_cons, beq_false_of_ne hne]

/-- The value a host read returns fits the register's width. -/
theorem Reading.bits_lt (rd : Reading) : rd.bits.2 < 2 ^ rd.bits.1.width := by
  cases rd <;> exact BitVec.isLt _

/-- Under a well-formed plain map, the bus words of a value write it to the register bound there. -/
theorem RegMap.busWrite_splitPieces {m : RegMap} {r : HostReg} {ps : List BusPiece} {x : Nat} (hw : m.wf = true)
    (hm : (r, ps) ∈ m.bound) (hx : x < 2 ^ r.width) :
    busWrite m ((ps.map BusPiece.addr).zip (splitPieces m.filler ps x)) =
      some (RegAccess.write r (BitVec.ofNat 128 x)).move := by
  obtain ⟨hat, hnodup, hwidth⟩ := RegMap.bindingAt_of_mem hw hm
  have haddrs : ((ps.map BusPiece.addr).zip (splitPieces m.filler ps x)).map (·.1) = ps.map BusPiece.addr :=
    List.map_fst_zip (by simp)
  have hjoin := joinPieces_splitPieces m.filler ps x (hwidth ▸ hx)
  simp [busWrite, RegMap.transaction, haddrs, hat, map_lookup_zip_addr hnodup, hjoin]

/-- A plain map carries a whole register: writing the bus words of what a host read returns writes that value, and reading
the same addresses reads the register and returns those words. -/
theorem RegMap.carries_reading {m : RegMap} {ps : List BusPiece} (rd : Reading) (hw : m.wf = true)
    (hm : (rd.bits.1, ps) ∈ m.bound) :
    busWrite m ((ps.map BusPiece.addr).zip (splitPieces m.filler ps rd.bits.2)) =
      some (RegAccess.write rd.bits.1 (BitVec.ofNat 128 rd.bits.2)).move ∧
    busReturns m (ps.map BusPiece.addr) rd = some ((ps.map BusPiece.addr).zip (splitPieces m.filler ps rd.bits.2)) ∧
    busRead m (ps.map BusPiece.addr) = some (RegAccess.read rd.bits.1).move := by
  obtain ⟨hat, -, -⟩ := RegMap.bindingAt_of_mem hw hm
  refine ⟨RegMap.busWrite_splitPieces hw hm rd.bits_lt, ?_, ?_⟩
  · simp [busReturns, hat]
  · simp [busRead, RegMap.transaction, hat]

/-- Settles O53: a register's pieces join up to the value split into them, each looked up at its own address. -/
theorem busBindingCarriesRegisters : Obligations.BusBindingCarriesRegisters := by
  intro m r ps hw hm
  refine ⟨?_, ?_, ?_, ?_⟩
  · rintro x rfl
    simpa [Reading.bits, RegAccess.move] using RegMap.carries_reading (.value x) hw hm
  · rintro x rfl
    simpa [Reading.bits, RegAccess.move] using RegMap.carries_reading (.result x) hw hm
  · rintro w rfl
    simpa [Reading.bits, RegAccess.move] using RegMap.carries_reading (.cmd w) hw hm
  · rintro w rfl
    simpa [Reading.bits, RegAccess.move] using RegMap.carries_reading (.status w) hw hm

/-! ### A system of cores -/

/-- Settles O55: each set of parameters is built at its own place, with the streams of that number. -/
theorem resetCoresBuiltAsGiven : Obligations.ResetCoresBuiltAsGiven := by
  intro first others
  refine ⟨by simp [resetCores], ?_⟩
  intro i c hc
  rw [resetCores, List.getElem?_map, List.getElem?_zipIdx, hc]
  simp

end Sys2Proof.Machine

/-! # State, registers and the invariant (10_state.md): O30, O8, O15, O18, O19, O21, O3, O4, O5, O9, O24, O25, O27, O29 -/

namespace Sys2Proof.Machine

/-! ### The command word of a decoded command -/

/-- A command word is put together from its three fields (R16). -/
theorem cmdWord_eq_fields (w : Byte) (hstart : startField w = true) (hreserved : reservedField w = 0) :
    w = 1#1 ++ 0#5 ++ opField w := by
  have h : ∀ w : BitVec 8, startField w = true → reservedField w = 0 → w = 1#1 ++ 0#5 ++ opField w := by decide
  exact h w hstart hreserved

/-- Only the command word of a command decodes to it (R58). -/
theorem decode_eq_ok_iff {w : Byte} {i : Instr} : decode w = .ok i ↔ w = encode i := by
  constructor
  · intro h
    unfold decode at h
    split at h
    · rename_i hstart
      split at h
      · rename_i hreserved
        cases h
        rw [encode, op_instrOfOp]
        exact cmdWord_eq_fields w hstart hreserved
      · cases h
    · cases h
  · rintro rfl
    cases i <;> rfl

/-- A word refused as reserved has `START` = 1 and a reserved bit set (R59). -/
theorem decode_eq_reservedSet {w : Byte} (h : decode w = .error .reservedSet) :
    w.getLsbD 7 = true ∧ w.extractLsb' 2 5 ≠ 0 := by
  unfold decode at h
  split at h
  · split at h
    · cases h
    · exact ⟨‹_›, ‹_›⟩
  · cases h

@[simp] theorem encode_start (i : Instr) : (encode i).getLsbD 7 = true := by cases i <;> rfl

/-! ### One step, one host action, one turn of the core -/

theorem step_of_nil {s : State} (h : s.agenda = []) : step s = coreMove s := by
  simp [step, h]

theorem step_of_cons {s : State} {m : Move} {rest : List Move} (h : s.agenda = m :: rest) :
    step s = takeMove m { s with agenda := rest } := by
  simp [step, h]

theorem coreMove_of_idle {s : State} (h : s.phase = .idle) : coreMove s = .next s := by
  simp [coreMove, h]

theorem coreMove_of_busy {s : State} {o : BitVec 2} (h : s.phase ≠ .idle) (ho : s.op = some o) :
    coreMove s = exec (instrOfOp o) s := by
  unfold coreMove
  split <;> simp_all

theorem writeCmd_of_idle {s : State} {w : Byte} {i : Instr} (h : s.phase = .idle) (hw : decode w = .ok i) :
    writeCmd w s = exec i s := by
  simp [writeCmd, hw, (State.busy_eq_false_iff s).2 h]

/-- A `wait` that finds `BUSY` = 1 stands in the agenda again, and the core takes its turn (log entry 12). -/
theorem step_wait_of_busy {s : State} {rest : List Move} (h : s.phase ≠ .idle) (ha : s.agenda = .wait :: rest) :
    step s = coreMove { s with readData := some (.status s.status) } := by
  have hbusy : ({ s with agenda := rest } : State).busy = true := (State.busy_eq_true_iff _).2 h
  rw [step_of_cons ha, takeMove, if_pos hbusy]
  simp only [State.reads, ← ha]
  rfl

theorem step_wait_of_idle {s : State} {rest : List Move} (h : s.phase = .idle) (ha : s.agenda = .wait :: rest) :
    step s = .next { s with agenda := rest, readData := some (.status s.status) } := by
  have hidle : ({ s with agenda := rest } : State).busy = false := (State.busy_eq_false_iff _).2 h
  rw [step_of_cons ha, takeMove, hidle]
  rfl

/-! ### What one step of a command can do -/

/-- The byte an encode command offers for its remaining value (R70, R73); a decode command offers none. -/
def groupByte : Instr → Word → Byte
  | .encU, x => unsignedByte x
  | .encS, x => signedByte x
  | .decU, _ => 0
  | .decS, _ => 0

/-- Encode command `i` in `RUN` asks the sink to take the byte of its remaining value, and is answered `a`. -/
structure EncodeRequest (i : Instr) (s : State) (x : Word) (c : BitVec 5) (a : Option WriteAnswer) (k : Sink) : Prop where
  encodes : i = .encU ∨ i = .encS
  run : s.phase = .run
  v : s.v = some x
  count : s.count = some c
  answer : s.snk.write (groupByte i x) = (a, k)

/-- Decode command `i` asks the source for a byte, in `RUN` or after a drained byte with bit 7 set, and is answered `a`. -/
structure DecodeRequest (i : Instr) (s : State) (a : Option ReadAnswer) (q : Source) : Prop where
  decodes : i = .decU ∨ i = .decS
  asks : s.phase = .run ∨ (s.phase = .drain ∧ ∃ last, s.b = some last ∧ contBit last = true)
  answer : s.src.read = (a, q)

/-- The steps a command can make: its start (R23), and one request of an encoder's loop (R70, R73), of a decoder's loop
(R82, R87) or of the drain (R86), by the stream's answer. -/
inductive CommandStep (s : State) : Instr → State → Prop
  | startEncode {i x} (hi : i = .encU ∨ i = .encS) (hp : s.phase = .idle) (hx : s.value = some x) :
      CommandStep s i { s.startCommand i with v := some x, count := some 0 }
  | startDecode {i} (hi : i = .decU ∨ i = .decS) (hp : s.phase = .idle) :
      CommandStep s i { s.startCommand i with acc := some 0, shift := some 0 }
  | sinkWaits {i x c k} (hr : EncodeRequest i s x c none k) : CommandStep s i { s with snk := k }
  | sinkFails {i x c e k} (hr : EncodeRequest i s x c (some (.fail e)) k) :
      CommandStep s i ({ s with snk := k }.outcome .ioError (sinkKind e) none)
  | lastGroup {i x c k} (hr : EncodeRequest i s x c (some .ok) k) :
      CommandStep s i ({ s with snk := k }.outcome .ok 0 (some ((c + 1).setWidth 128)))
  | unsignedGroup {x c k} (hr : EncodeRequest .encU s x c (some .ok) k) (hx : 128 ≤ x.toNat) :
      CommandStep s .encU { s with snk := k, v := some (x >>> 7), count := some (c + 1) }
  | signedGroup {x c k} (hr : EncodeRequest .encS s x c (some .ok) k) (hx : ¬ (-64 ≤ x.toInt ∧ x.toInt ≤ 63)) :
      CommandStep s .encS { s with snk := k, v := some (signedRest x), done := some false, count := some (c + 1) }
  | sourceWaits {i q} (hr : DecodeRequest i s none q) : CommandStep s i { s with src := q }
  | sourceFails {i e q} (hr : DecodeRequest i s (some (.fail e)) q) :
      CommandStep s i ({ s with src := q }.outcome .ioError (sourceKind e) none)
  | placesGroup {i a sh b q} (hr : DecodeRequest i s (some (.byte b)) q) (hp : s.phase = .run) (ha : s.acc = some a)
      (hs : s.shift = some sh) (hg : guardFails (permitOf i s.config.boundarySet) sh b = false) (hb : contBit b = true) :
      CommandStep s i { s with src := q, b := some b, acc := some (placeGroup a b sh), shift := some (sh + 7) }
  | terminalByte {i b q} (d : Word) (hr : DecodeRequest i s (some (.byte b)) q) (hp : s.phase = .run)
      (hb : contBit b = false) : CommandStep s i ({ s with src := q }.outcome .ok 0 (some d))
  | drains {i b q} (hr : DecodeRequest i s (some (.byte b)) q) (hb : contBit b = true)
      (hs : s.phase = .run → s.shift = some Config.boundary) :
      CommandStep s i { s with src := q, b := some b, phase := .drain }
  | overflows {i b q} (hr : DecodeRequest i s (some (.byte b)) q) (hb : contBit b = false)
      (hs : s.phase = .run → s.shift = some Config.boundary) :
      CommandStep s i ({ s with src := q }.outcome .overflow 0 none)
  /-- A drain whose last byte already was the terminal one; no run from reset reaches it. -/
  | drained {i last} (hi : i = .decU ∨ i = .decS) (hp : s.phase = .drain) (hb : s.b = some last)
      (hl : contBit last = false) : CommandStep s i (s.outcome .overflow 0 none)

/-- A write request is one of the encoder's steps, where its step on an accepted byte is. -/
theorem CommandStep.of_writeRequest {i : Instr} {s t : State} {x : Word} {c : BitVec 5} {accepted : State → State}
    (hr : ∀ a k, s.snk.write (groupByte i x) = (a, k) → EncodeRequest i s x c a k)
    (hok : ∀ k, EncodeRequest i s x c (some .ok) k → CommandStep s i (accepted { s with snk := k }))
    (h : writeRequest (groupByte i x) accepted s = .next t) : CommandStep s i t := by
  obtain ⟨k, hk, rfl⟩ | ⟨e, k, hk, rfl⟩ | ⟨k, hk, rfl⟩ := writeRequest_next h
  · exact .sinkWaits (hr _ _ hk)
  · exact .sinkFails (hr _ _ hk)
  · exact hok k (hr _ _ hk)

/-- A read request is one of the decoder's steps, where its step on a supplied byte is. -/
theorem CommandStep.of_readRequest {i : Instr} {s t : State} {supplied : Byte → State → State}
    (hr : ∀ a q, s.src.read = (a, q) → DecodeRequest i s a q)
    (hbyte : ∀ b q, DecodeRequest i s (some (.byte b)) q → CommandStep s i (supplied b { s with src := q, b := some b }))
    (h : readRequest supplied s = .next t) : CommandStep s i t := by
  obtain ⟨q, hq, rfl⟩ | ⟨e, q, hq, rfl⟩ | ⟨b, q, hq, rfl⟩ := readRequest_next h
  · exact .sourceWaits (hr _ _ hq)
  · exact .sourceFails (hr _ _ hq)
  · exact hbyte b q (hr _ _ hq)

/-- The drain's loop test goes on draining or overflows. -/
theorem CommandStep.of_drainOn {i : Instr} {s : State} {b : Byte} {q : Source}
    (hr : DecodeRequest i s (some (.byte b)) q) (hs : s.phase = .run → s.shift = some Config.boundary) :
    CommandStep s i (State.drainOn b { s with src := q, b := some b }) := by
  unfold State.drainOn
  split
  · exact .drains hr ‹_› hs
  · exact .overflows hr (Bool.eq_false_of_not_eq_true ‹_›) hs

/-- A byte supplied in `RUN`: guard, accumulate, terminal test, in this order (R98), whatever value `d` a terminal byte
gives. -/
theorem CommandStep.of_supplied {i : Instr} {s : State} {a : Word} {sh : BitVec 8} {b : Byte} {q : Source} (d : Word)
    (hr : DecodeRequest i s (some (.byte b)) q) (hp : s.phase = .run) (ha : s.acc = some a) (hs : s.shift = some sh) :
    CommandStep s i
      (if guardFails (permitOf i s.config.boundarySet) sh b then State.drainOn b { s with src := q, b := some b }
      else if contBit b then
        { s with src := q, b := some b, acc := some (placeGroup a b sh), shift := some (sh + 7) }
      else State.finish d { s with src := q, b := some b }) := by
  split
  · rename_i hg
    refine .of_drainOn hr fun _ => ?_
    simp only [guardFails, Bool.and_eq_true, beq_iff_eq] at hg
    rw [hs, hg.1]
  · split
    · exact .placesGroup hr hp ha hs (Bool.eq_false_of_not_eq_true ‹_›) ‹_›
    · exact .terminalByte d hr hp (Bool.eq_false_of_not_eq_true ‹_›)

/-- A step of the drain is one of the decoder's steps. -/
theorem CommandStep.of_drainRequest {i : Instr} {s t : State} (hi : i = .decU ∨ i = .decS) (hp : s.phase = .drain)
    (h : drainRequest s = .next t) : CommandStep s i t := by
  obtain ⟨last, hb, ⟨hl, rfl⟩ | ⟨hl, h⟩⟩ := drainRequest_next h
  · exact .drained hi hp hb hl
  · exact .of_readRequest (fun _ _ hq => ⟨hi, .inr ⟨hp, last, hb, hl⟩, hq⟩) (fun _ _ hr => .of_drainOn hr (by simp [hp])) h

/-- Every step of a command that answers a next state is one of the steps named. -/
theorem CommandStep.of_exec {i : Instr} {s t : State} (h : exec i s = .next t) : CommandStep s i t := by
  cases i with
  | encU =>
    obtain ⟨hp, h⟩ | ⟨hp, x, c, hv, hc, h⟩ := execEncU_next h
    · obtain ⟨x, hx, rfl⟩ := startEncode_next h
      exact .startEncode (.inl rfl) hp hx
    · refine .of_writeRequest (i := .encU) (fun _ _ hk => ⟨.inl rfl, hp, hv, hc, hk⟩) (fun k hr => ?_) h
      simp only [encodeUnsignedAccepted, shiftRight_seven_eq_zero_iff]
      split
      · exact .lastGroup hr
      · exact .unsignedGroup hr (by omega)
  | encS =>
    obtain ⟨hp, h⟩ | ⟨hp, x, c, hv, hc, h⟩ := execEncS_next h
    · obtain ⟨x, hx, rfl⟩ := startEncode_next h
      exact .startEncode (.inr rfl) hp hx
    · refine .of_writeRequest (i := .encS) (fun _ _ hk => ⟨.inr rfl, hp, hv, hc, hk⟩) (fun k hr => ?_) h
      simp only [encodeSignedAccepted, signedLast_eq, decide_eq_true_eq]
      split
      · exact .lastGroup hr
      · exact .signedGroup hr ‹_›
  | decU =>
    obtain ⟨hp, h⟩ | ⟨hp, a, sh, ha, hs, h⟩ | ⟨hp, h⟩ := execDecU_next h
    · cases h
      exact .startDecode (.inl rfl) hp
    · exact .of_readRequest (fun _ _ hq => ⟨.inl rfl, .inl hp, hq⟩) (fun _ _ hr => .of_supplied _ hr hp ha hs) h
    · exact .of_drainRequest (.inl rfl) hp h
  | decS =>
    obtain ⟨hp, h⟩ | ⟨hp, a, sh, ha, hs, h⟩ | ⟨hp, h⟩ := execDecS_next h
    · cases h
      exact .startDecode (.inr rfl) hp
    · exact .of_readRequest (fun _ _ hq => ⟨.inr rfl, .inl hp, hq⟩) (fun _ _ hr => .of_supplied _ hr hp ha hs) h
    · exact .of_drainRequest (.inr rfl) hp h

/-! ### What one step of the machine can do -/

/-- The steps the machine can make: a command's step, with the host's side as the step's action left it, or what a host or
environment action does. -/
inductive StepEffect (s : State) : State → Prop
  | leavesCore (a : List Move) (r : Option Reading) : StepEffect s (s.withHost a r)
  | starts {i rest t} (ha : s.agenda = .writeCmd (encode i) :: rest) (hp : s.phase = .idle)
      (ht : CommandStep { s with agenda := rest } i t) : StepEffect s t
  | runs {o a r t} (hp : s.phase ≠ .idle) (ho : s.op = some o)
      (ht : CommandStep (s.withHost a r) (instrOfOp o) t) : StepEffect s t
  | refusesCmd {w rest} (ha : s.agenda = .writeCmd w :: rest) (hw : w.getLsbD 7 = true)
      (hr : w.extractLsb' 2 5 ≠ 0 ∨ s.phase ≠ .idle) : StepEffect s { s with agenda := rest, refusalMark := true }
  | writesValue {x rest} (ha : s.agenda = .writeValue x :: rest) :
      StepEffect s { s with agenda := rest, value := some x }
  | connectsSource (q : Source) (rest : List Move) : StepEffect s { s with agenda := rest, src := q }
  | connectsSink (k : Sink) (rest : List Move) : StepEffect s { s with agenda := rest, snk := k }
  | resets {moved rest} (ha : s.agenda = .reset moved :: rest) :
      StepEffect s (State.resetCore moved { s with agenda := rest })

/-- The core's turn, with the host's side as the step's action left it. -/
theorem StepEffect.of_coreMove {s t : State} {a : List Move} {r : Option Reading}
    (h : coreMove (s.withHost a r) = .next t) : StepEffect s t := by
  obtain ⟨-, rfl⟩ | ⟨hp, o, ho, h⟩ := coreMove_next h
  · exact .leavesCore a r
  · exact .runs hp ho (.of_exec h)

theorem StepEffect.of_writeCmd {s t : State} {w : Byte} {rest : List Move} (ha : s.agenda = .writeCmd w :: rest)
    (h : writeCmd w { s with agenda := rest } = .next t) : StepEffect s t := by
  unfold writeCmd at h
  split at h
  · cases h
    exact .leavesCore rest s.readData
  · cases h
    obtain ⟨hstart, hreserved⟩ := decode_eq_reservedSet ‹_›
    exact .refusesCmd ha hstart (.inl hreserved)
  · rename_i i hw
    obtain rfl := decode_eq_ok_iff.1 hw
    split at h
    · rename_i hbusy
      cases h
      exact .refusesCmd ha (encode_start i) (.inr ((State.busy_eq_true_iff _).1 hbusy))
    · rename_i hbusy
      exact .starts ha ((State.busy_eq_false_iff _).1 (Bool.eq_false_of_not_eq_true hbusy)) (.of_exec h)

theorem StepEffect.of_readOr {s t : State} {f : Fault} {x : Option Word} {reading : Word → Reading} {rest : List Move}
    (h : readOr f x reading { s with agenda := rest } = .next t) : StepEffect s t := by
  cases x with
  | none => cases h
  | some y =>
    cases h
    exact .leavesCore rest (some (reading y))

/-- Every step that answers a next state is one of the steps named. -/
theorem StepEffect.of_step {s t : State} (h : step s = .next t) : StepEffect s t := by
  obtain ⟨-, h⟩ | ⟨m, rest, ha, h⟩ := step_next h
  · exact .of_coreMove (a := s.agenda) (r := s.readData) h
  cases m with
  | coreStep => exact .of_coreMove (a := rest) (r := s.readData) h
  | wait =>
    simp only [takeMove] at h
    split at h
    · exact .of_coreMove h
    · cases h
      exact .leavesCore rest _
  | writeCmd w => exact .of_writeCmd ha h
  | writeValue x => cases h; exact .writesValue ha
  | writeStatus w => cases h; exact .leavesCore rest s.readData
  | writeResult x => cases h; exact .leavesCore rest s.readData
  | readCmd => cases h; exact .leavesCore rest _
  | readValue => exact .of_readOr h
  | readStatus => cases h; exact .leavesCore rest _
  | readResult => exact .of_readOr h
  | connectSource q =>
    simp only [takeMove] at h
    split at h <;> cases h
    exact .connectsSource q rest
  | connectSink k =>
    simp only [takeMove] at h
    split at h <;> cases h
    exact .connectsSink k rest
  | reset moved => cases h; exact .resets ha

/-! ### What every step of a command keeps -/

/-- No command is both an encode and a decode (R58). -/
theorem not_encode_and_decode {i : Instr} (he : i = .encU ∨ i = .encS) (hd : i = .decU ∨ i = .decS) : False := by
  obtain rfl | rfl := he <;> simp at hd

theorem EncodeRequest.busy {i s x c a k} (hr : EncodeRequest i s x c a k) : s.phase ≠ .idle := by
  simp [hr.run]

theorem EncodeRequest.sink {i s x c a k} (hr : EncodeRequest i s x c a k) : k = (s.snk.write (groupByte i x)).2 := by
  rw [hr.answer]

theorem DecodeRequest.busy {i s a q} (hr : DecodeRequest i s a q) : s.phase ≠ .idle := by
  obtain hp | ⟨hp, -⟩ := hr.asks <;> simp [hp]

theorem DecodeRequest.source {i s a q} (hr : DecodeRequest i s a q) : q = s.src.read.2 := by
  rw [hr.answer]

/-- In `DRAIN` a byte is asked for only when the last one had bit 7 set (R86). -/
theorem DecodeRequest.last_cont {i s a q last} (hr : DecodeRequest i s a q) (hp : s.phase = .drain)
    (hb : s.b = some last) : 128 ≤ last.toNat := by
  obtain hrun | ⟨-, last', hb', hl⟩ := hr.asks
  · simp [hp] at hrun
  · cases hb.symm.trans hb'
    exact (contBit_eq_true_iff last).1 hl

/-- No command writes `VALUE`, the refusal mark, the parameters or the host's side (R17). -/
theorem CommandStep.keeps_host {i : Instr} {s t : State} (h : CommandStep s i t) :
    t.value = s.value ∧ t.refusalMark = s.refusalMark ∧ t.config = s.config ∧ t.agenda = s.agenda ∧
      t.readData = s.readData := by
  cases h <;> exact ⟨rfl, rfl, rfl, rfl, rfl⟩

/-- A command's step on an idle core is its start (R23), which touches no stream. -/
theorem CommandStep.of_idle {i : Instr} {s t : State} (h : CommandStep s i t) (hp : s.phase = .idle) :
    t.phase = .run ∧ t.lastOp = i.op ∧ t.src = s.src ∧ t.snk = s.snk ∧ t.done = none ∧ t.b = none ∧
      (i = .encU ∨ i = .encS → t.acc = none ∧ t.shift = none) ∧
      (i = .decU ∨ i = .decS → t.v = none ∧ t.count = none) := by
  cases h with
  | startEncode hi => obtain rfl | rfl := hi <;> simp
  | startDecode hi => obtain rfl | rfl := hi <;> simp
  | drained _ hdrain => simp [hp] at hdrain
  | sinkWaits hr | sinkFails hr | lastGroup hr | unsignedGroup hr | signedGroup hr => exact absurd hp hr.busy
  | sourceWaits hr | sourceFails hr | placesGroup hr | terminalByte _ hr | drains hr | overflows hr =>
    exact absurd hp hr.busy

/-- While a command runs, `OP` and `STATUS.LAST_OP` stay, and `STATUS.CODE` and `STATUS.IO_KIND` stay unless the step ends
the command (R24). -/
theorem CommandStep.of_busy {i : Instr} {s t : State} (h : CommandStep s i t) (hp : s.phase ≠ .idle) :
    t.op = s.op ∧ t.lastOp = s.lastOp ∧
      ((t.code = s.code ∧ t.ioKind = s.ioKind) ∨ (t.phase = .idle ∧ t.code ≠ .noOutcome)) := by
  cases h with
  | startEncode _ hidle | startDecode _ hidle => exact absurd hidle hp
  | sinkWaits | unsignedGroup | signedGroup | sourceWaits | placesGroup | drains => exact ⟨rfl, rfl, .inl ⟨rfl, rfl⟩⟩
  | sinkFails | lastGroup | sourceFails | terminalByte | overflows | drained => exact ⟨rfl, rfl, .inr ⟨rfl, nofun⟩⟩

/-- An encoder's step never touches the source, and asks the sink for the one byte of its remaining value (R33, R38). -/
theorem CommandStep.streams_of_encode {i : Instr} {s t : State} (h : CommandStep s i t) (hi : i = .encU ∨ i = .encS) :
    t.src = s.src ∧
      (∀ x, s.phase = .run → s.v = some x → t.snk = (s.snk.write (groupByte i x)).2) := by
  cases h with
  | startEncode _ hidle | startDecode _ hidle => simp [hidle]
  | sinkWaits hr | sinkFails hr | lastGroup hr | unsignedGroup hr | signedGroup hr =>
    refine ⟨rfl, fun y _ hy => ?_⟩
    cases hr.v.symm.trans hy
    exact hr.sink
  | sourceWaits hr | sourceFails hr | placesGroup hr | terminalByte _ hr | drains hr | overflows hr =>
    exact (not_encode_and_decode hi hr.decodes).elim
  | drained hd => exact (not_encode_and_decode hi hd).elim

/-- A decoder's step never touches the sink, and makes at most one request of the source: in `DRAIN` exactly when the last
byte has bit 7 set (R33, R38, R86). -/
theorem CommandStep.streams_of_decode {i : Instr} {s t : State} (h : CommandStep s i t) (hi : i = .decU ∨ i = .decS) :
    t.snk = s.snk ∧ (s.phase = .run → t.src = s.src.read.2) ∧
      (∀ last, s.phase = .drain → s.b = some last →
        (128 ≤ last.toNat → t.src = s.src.read.2) ∧ (last.toNat < 128 → t.src = s.src)) := by
  cases h with
  | startEncode _ hidle | startDecode _ hidle => simp [hidle]
  | sinkWaits hr | sinkFails hr | lastGroup hr | unsignedGroup hr | signedGroup hr =>
    exact (not_encode_and_decode hr.encodes hi).elim
  | sourceWaits hr | sourceFails hr | placesGroup hr | terminalByte _ hr | drains hr | overflows hr =>
    refine ⟨rfl, fun _ => hr.source, fun last hp hb => ⟨fun _ => hr.source, fun hl => ?_⟩⟩
    have := hr.last_cont hp hb
    omega
  | drained _ hp hb hl =>
    rw [contBit_eq_false_iff] at hl
    refine ⟨rfl, by simp [hp], fun last' _ hb' => ?_⟩
    cases hb.symm.trans hb'
    exact ⟨fun _ => by omega, fun _ => rfl⟩

/-- The registers an encode that goes on leaves alone. -/
theorem CommandStep.datapath_of_encode {i : Instr} {s t : State} (h : CommandStep s i t) (hi : i = .encU ∨ i = .encS)
    (hp : s.phase ≠ .idle) (ht : t.phase ≠ .idle) :
    t.acc = s.acc ∧ t.shift = s.shift ∧ t.b = s.b ∧ (i = .encU → t.done = s.done) := by
  cases h with
  | startEncode _ hidle | startDecode _ hidle => exact absurd hidle hp
  | sinkWaits | unsignedGroup | sourceWaits => exact ⟨rfl, rfl, rfl, fun _ => rfl⟩
  | signedGroup => exact ⟨rfl, rfl, rfl, nofun⟩
  | sinkFails | lastGroup | sourceFails | terminalByte | overflows | drained => exact absurd rfl ht
  | placesGroup hr | drains hr => exact (not_encode_and_decode hi hr.decodes).elim

/-- The registers a decode that goes on leaves alone. -/
theorem CommandStep.datapath_of_decode {i : Instr} {s t : State} (h : CommandStep s i t) (hi : i = .decU ∨ i = .decS)
    (hp : s.phase ≠ .idle) (ht : t.phase ≠ .idle) :
    t.v = s.v ∧ t.count = s.count ∧ t.done = s.done := by
  cases h with
  | startEncode _ hidle | startDecode _ hidle => exact absurd hidle hp
  | sinkWaits | sourceWaits | placesGroup | drains => exact ⟨rfl, rfl, rfl⟩
  | sinkFails | lastGroup | sourceFails | terminalByte | overflows | drained => exact absurd rfl ht
  | unsignedGroup | signedGroup => simp at hi

/-- The drain discards its bytes (R86). -/
theorem CommandStep.acc_shift_of_drain {i : Instr} {s t : State} (h : CommandStep s i t) (hp : s.phase = .drain)
    (ht : t.phase ≠ .idle) : t.acc = s.acc ∧ t.shift = s.shift := by
  cases h with
  | startEncode _ hidle | startDecode _ hidle => simp [hp] at hidle
  | sinkWaits | unsignedGroup | signedGroup | sourceWaits | drains => exact ⟨rfl, rfl⟩
  | sinkFails | lastGroup | sourceFails | terminalByte | overflows | drained => exact absurd rfl ht
  | placesGroup _ hrun => simp [hp] at hrun

/-! ### Starts, turns and host accesses -/

/-- Settles O3: the step takes the write off the agenda, and a command word on an idle core is the command's step. -/
theorem stepRunsWrittenCommand : Obligations.StepRunsWrittenCommand := by
  intro s w i rest hp ha hw
  rw [step_of_cons ha, takeMove]
  exact writeCmd_of_idle hp hw

/-- Settles O4: each of the three actions that give the core its turn is `coreMove`. -/
theorem stepRunsLatchedCommand : Obligations.StepRunsLatchedCommand := by
  constructor
  · intro s o hp ho
    refine ⟨fun ha => ?_, fun rest ha => ?_, fun rest ha => ?_⟩
    · rw [step_of_nil ha, coreMove_of_busy hp ho]
    · rw [step_of_cons ha]
      exact coreMove_of_busy hp ho
    · rw [step_wait_of_busy hp ha]
      exact coreMove_of_busy hp ho
  · intro s hp
    refine ⟨fun ha => ?_, fun rest ha => ?_, fun rest ha => ?_⟩
    · rw [step_of_nil ha, coreMove_of_idle hp]
    · rw [step_of_cons ha]
      exact coreMove_of_idle hp
    · exact step_wait_of_idle hp ha

/-- A table word of 8 bits carries the command its byte decodes to. -/
theorem decode_of_decodeTableWord {nbits w : Nat} {i : Instr} (h : decodeTableWord nbits w = some i) :
    decode (BitVec.ofNat 8 (w % 2 ^ nbits)) = .ok i := by
  unfold decodeTableWord at h
  split at h
  · split at h <;> cases h
    assumption
  · cases h

/-- Settles O5: the placed word is the agenda's first action, so O3 speaks of the next step. -/
theorem placedWordRunsNext : Obligations.PlacedWordRunsNext := by
  intro s w i hp hw
  exact stepRunsWrittenCommand (s.withFetchWord 8 w) _ i s.agenda hp rfl (decode_of_decodeTableWord hw)

theorem exec_of_idle_of_encode {i : Instr} {s : State} (hi : i = .encU ∨ i = .encS) (hp : s.phase = .idle) :
    exec i s = startEncode i s := by
  obtain rfl | rfl := hi
  · simp [exec, execEncU, hp]
  · simp [exec, execEncS, hp]

theorem exec_of_idle_of_decode {i : Instr} {s : State} (hi : i = .decU ∨ i = .decS) (hp : s.phase = .idle) :
    exec i s = startDecode i s := by
  obtain rfl | rfl := hi
  · simp [exec, execDecU, hp]
  · simp [exec, execDecS, hp]

theorem startEncode_of_value {i : Instr} {s : State} {x : Word} (h : s.value = some x) :
    startEncode i s = .next { s.startCommand i with v := some x, count := some 0 } := by
  simp [startEncode, h]

theorem startEncode_of_no_value {i : Instr} {s : State} (h : s.value = none) :
    startEncode i s = .fault .valueHoldsNoValue := by
  simp [startEncode, h]

/-- Settles O8: the step is the command's own start, by O3. -/
theorem startInitialisesCommand : Obligations.StartInitialisesCommand := by
  intro s i rest hp ha
  have hstep := stepRunsWrittenCommand s (encode i) i rest hp ha (decode_eq_ok_iff.2 rfl)
  have hp' : ({ s with agenda := rest } : State).phase = .idle := hp
  constructor
  · intro x hi hx
    rw [hstep, exec_of_idle_of_encode hi hp']
    exact startEncode_of_value hx
  · intro hi
    rw [hstep, exec_of_idle_of_decode hi hp']
    rfl

/-- Settles O9: the start of an encode and the read of `VALUE` both look into the empty register. -/
theorem valueWithoutValueFaults : Obligations.ValueWithoutValueFaults := by
  intro s hv
  refine ⟨fun hp => ⟨?_, ?_⟩, fun rest ha => ?_⟩
  · rw [exec_of_idle_of_encode (.inl rfl) hp, startEncode_of_no_value hv]
  · rw [exec_of_idle_of_encode (.inr rfl) hp, startEncode_of_no_value hv]
  · simp [step_of_cons ha, takeMove, readOr, hv]

/-- The bits of a byte put together as `STATUS` is (R18). -/
theorem statusWord_fields (l k c : BitVec 2) (busy : Bool) :
    let w : Byte := 0#1 ++ l ++ k ++ c ++ BitVec.ofBool busy
    w.getLsbD 0 = busy ∧ w.extractLsb' 1 2 = c ∧ w.extractLsb' 3 2 = k ∧ w.extractLsb' 5 2 = l ∧
      w.getLsbD 7 = false := by
  have h : ∀ (l k c : BitVec 2) (busy : Bool),
      let w : Byte := 0#1 ++ l ++ k ++ c ++ BitVec.ofBool busy
      w.getLsbD 0 = busy ∧ w.extractLsb' 1 2 = c ∧ w.extractLsb' 3 2 = k ∧ w.extractLsb' 5 2 = l ∧
        w.getLsbD 7 = false := by decide
  exact h l k c busy

/-- Settles O24: `STATUS` is put together from its fields. -/
theorem statusByteLayout : Obligations.StatusByteLayout := by
  intro s
  obtain ⟨hbusy, hcode, hkind, hop, htop⟩ := statusWord_fields s.lastOp s.ioKind s.code.bits s.busy
  refine ⟨?_, ?_, hkind, hop, htop⟩
  · rw [← State.busy_eq_true_iff, ← hbusy]
    rfl
  · rw [State.status, hcode]
    cases s.code <;> rfl

/-- Settles O25: each access is the agenda's first action, and does what its move does. -/
theorem hostRegisterAccess : Obligations.HostRegisterAccess := by
  intro s rest
  refine ⟨fun ha => ?_, fun ha => ?_, fun x ha hx => ?value, fun x ha hx => ?result, fun w ha => ?_, fun x ha => ?_,
    fun x ha => ?_⟩
  case value => simp [step_of_cons ha, takeMove, readOr, hx, State.reads]
  case result => simp [step_of_cons ha, takeMove, readOr, hx, State.reads]
  all_goals
    rw [step_of_cons ha]
    rfl

/-- Settles O27: the reset state is the table of R31. -/
theorem resetValues : Obligations.ResetValues := by
  unfold Obligations.ResetValues
  decide

/-! ### What every step keeps -/

/-- Settles O15: the clauses are what `CommandStep` keeps at a start and in each kind of request. -/
theorem commandStepFrame : Obligations.CommandStepFrame := by
  intro i s t h
  have hstep := CommandStep.of_exec h
  obtain ⟨hvalue, hmark, hconfig, hagenda, hread⟩ := hstep.keeps_host
  refine ⟨hvalue, hmark, hconfig, hagenda, hread, ?op, ?start, ?encodeSource, ?decodeSink, ?unsignedSink, ?signedSink,
    ?unsignedDatapath, ?signedDatapath, ?runSource, ?drainSource, ?decodeDatapath, ?drainDatapath⟩
  case op =>
    intro hp
    obtain ⟨hop, hlast, -⟩ := hstep.of_busy hp
    exact ⟨hop, hlast⟩
  case start =>
    intro hp
    obtain ⟨-, -, hsrc, hsnk, -⟩ := hstep.of_idle hp
    exact ⟨hsrc, hsnk⟩
  case encodeSource => exact fun hi => (hstep.streams_of_encode hi).1
  case decodeSink => exact fun hi => (hstep.streams_of_decode hi).1
  case unsignedSink =>
    rintro x rfl
    exact (hstep.streams_of_encode (.inl rfl)).2 x
  case signedSink =>
    rintro x rfl
    exact (hstep.streams_of_encode (.inr rfl)).2 x
  case unsignedDatapath =>
    rintro rfl ht
    by_cases hp : s.phase = .idle
    · obtain ⟨-, -, -, -, hdone, hb, henc, -⟩ := hstep.of_idle hp
      obtain ⟨hacc, hshift⟩ := henc (.inl rfl)
      simp [hp, hacc, hshift, hb, hdone]
    · obtain ⟨hacc, hshift, hb, hdone⟩ := hstep.datapath_of_encode (.inl rfl) hp ht
      simp [hp, hacc, hshift, hb, hdone rfl]
  case signedDatapath =>
    rintro rfl ht
    by_cases hp : s.phase = .idle
    · obtain ⟨-, -, -, -, -, hb, henc, -⟩ := hstep.of_idle hp
      obtain ⟨hacc, hshift⟩ := henc (.inr rfl)
      simp [hp, hacc, hshift, hb]
    · obtain ⟨hacc, hshift, hb, -⟩ := hstep.datapath_of_encode (.inr rfl) hp ht
      simp [hp, hacc, hshift, hb]
  case runSource => exact fun hi => (hstep.streams_of_decode hi).2.1
  case drainSource => exact fun last hi => (hstep.streams_of_decode hi).2.2 last
  case decodeDatapath =>
    intro hi ht
    by_cases hp : s.phase = .idle
    · obtain ⟨-, -, -, -, hdone, -, -, hdec⟩ := hstep.of_idle hp
      obtain ⟨hv, hcount⟩ := hdec hi
      simp [hp, hv, hcount, hdone]
    · obtain ⟨hv, hcount, hdone⟩ := hstep.datapath_of_decode hi hp ht
      simp [hp, hv, hcount, hdone]
  case drainDatapath => exact hstep.acc_shift_of_drain

/-- Settles O18: of the effects a step can have, only a refused `CMD` write touches the mark. -/
theorem refusalMarkNeverCleared : Obligations.RefusalMarkNeverCleared := by
  intro s t h
  cases StepEffect.of_step h with
  | refusesCmd ha hw hr => exact ⟨fun _ => rfl, fun _ _ => ⟨_, _, ha, hw, hr⟩⟩
  | starts _ _ ht | runs _ _ ht =>
    obtain ⟨-, hmark, -⟩ := ht.keeps_host
    exact ⟨hmark.trans, fun hclear hset => (Bool.false_ne_true (hclear.symm.trans (hmark.symm.trans hset))).elim⟩
  | leavesCore | writesValue | connectsSource | connectsSink | resets =>
    exact ⟨id, fun hclear hset => (Bool.false_ne_true (hclear.symm.trans hset)).elim⟩

/-- Settles O19: of the effects a step can have, only a write of `VALUE` and reset touch `VALUE`. -/
theorem onlyHostWritesValue : Obligations.OnlyHostWritesValue := by
  intro s t h
  cases StepEffect.of_step h with
  | starts _ _ ht | runs _ _ ht =>
    obtain ⟨hvalue, -, hconfig, -⟩ := ht.keeps_host
    exact ⟨hconfig, .inl hvalue⟩
  | writesValue ha => exact ⟨rfl, .inr (.inl ⟨_, _, ha, rfl⟩)⟩
  | resets ha => exact ⟨rfl, .inr (.inr ⟨_, _, ha, rfl⟩)⟩
  | leavesCore | refusesCmd | connectsSource | connectsSink => exact ⟨rfl, .inl rfl⟩

/-- Settles O21: a start shows its own `OP`, a running command's step keeps the three fields or ends it, and no other effect
but reset touches them. -/
theorem statusChangesOnlyAtStartAndEnd : Obligations.StatusChangesOnlyAtStartAndEnd := by
  intro s t h hchange
  cases StepEffect.of_step h with
  | starts ha hp ht =>
    obtain ⟨hrun, hop, -⟩ := ht.of_idle hp
    exact .inl ⟨hp, hrun, _, _, ha, hop⟩
  | runs hp _ ht =>
    obtain ⟨-, hlast, ⟨hcode, hkind⟩ | ⟨hidle, hcode⟩⟩ := ht.of_busy hp
    · simp [hcode, hkind, hlast] at hchange
    · exact .inr (.inl ⟨hp, hidle, hcode⟩)
  | resets ha => exact .inr (.inr ⟨_, _, ha⟩)
  | leavesCore | refusesCmd | writesValue | connectsSource | connectsSink => simp at hchange

/-! ### What the invariant says in each phase -/

theorem State.inv_iff_of_idle {s : State} (hp : s.phase = .idle) : s.Inv ↔ s.idleInv := by
  simp [State.Inv, hp]

theorem State.inv_iff_of_run {s : State} (hp : s.phase = .run) : s.Inv ↔ s.busyInv ∧ (s.encodeInv ∨ s.decodeInv) := by
  simp [State.Inv, hp]

theorem State.inv_iff_of_drain {s : State} (hp : s.phase = .drain) : s.Inv ↔ s.busyInv ∧ s.drainInv := by
  simp [State.Inv, hp]

theorem State.Inv.busyInv {s : State} (h : s.Inv) (hp : s.phase ≠ .idle) : s.busyInv := by
  cases hphase : s.phase with
  | idle => exact absurd hphase hp
  | run => exact ((State.inv_iff_of_run hphase).1 h).1
  | drain => exact ((State.inv_iff_of_drain hphase).1 h).1

/-- The command latched in `OP` is the one shown in `STATUS.LAST_OP` while it runs (R22). -/
theorem State.Inv.lastOp_eq {s : State} {i : Instr} (h : s.Inv) (hp : s.phase ≠ .idle) (ho : s.op = some i.op) :
    s.lastOp = i.op := by
  obtain ⟨hop, -⟩ := h.busyInv hp
  simpa [hop] using ho

/-- Bit 1 of `OP` tells a decode from an encode (R58). -/
theorem op_bit_of_encode {i : Instr} (hi : i = .encU ∨ i = .encS) : i.op.getLsbD 1 = false := by
  obtain rfl | rfl := hi <;> rfl

theorem op_bit_of_decode {i : Instr} (hi : i = .decU ∨ i = .decS) : i.op.getLsbD 1 = true := by
  obtain rfl | rfl := hi <;> rfl

theorem State.Inv.encodeInv {s : State} {i : Instr} (h : s.Inv) (hp : s.phase = .run) (hi : i = .encU ∨ i = .encS)
    (ho : s.op = some i.op) : s.encodeInv := by
  obtain ⟨-, henc | ⟨hdec, -⟩⟩ := (State.inv_iff_of_run hp).1 h
  · exact henc
  · obtain rfl | rfl := hi <;> simp [ho, Instr.op] at hdec

theorem State.Inv.decodeInv {s : State} {i : Instr} (h : s.Inv) (hp : s.phase = .run) (hi : i = .decU ∨ i = .decS)
    (ho : s.op = some i.op) : s.decodeInv := by
  obtain ⟨-, ⟨-, -, -, x, c, -, -, -, henc⟩ | hdec⟩ := (State.inv_iff_of_run hp).1 h
  · obtain rfl | rfl := hi <;> simp [ho, Instr.op] at henc
  · exact hdec

theorem State.Inv.drainInv {s : State} (h : s.Inv) (hp : s.phase = .drain) : s.drainInv :=
  ((State.inv_iff_of_drain hp).1 h).2

/-- At most 18 bytes are written before a request (R56). -/
theorem State.encodeInv.count_le {s : State} {c : BitVec 5} (h : s.encodeInv) (hc : s.count = some c) : c.toNat ≤ 18 := by
  obtain ⟨-, -, -, x, c', -, hc', hle, -⟩ := h
  cases hc.symm.trans hc'
  exact hle

/-! ### Starts and endings meet the invariant -/

/-- Settles O29: reset leaves the core between commands, with no outcome and no value in any register. -/
theorem resetMeetsInvariant : Obligations.ResetMeetsInvariant := by
  simp [Obligations.ResetMeetsInvariant, State.Inv, State.idleInv, State.reset]

theorem inv_startEncode {s : State} {i : Instr} {x : Word} (hi : i = .encU ∨ i = .encS) :
    ({ s.startCommand i with v := some x, count := some 0 } : State).Inv := by
  refine (State.inv_iff_of_run rfl).2 ⟨⟨rfl, rfl, rfl, rfl⟩, .inl ⟨rfl, rfl, rfl, x, 0, rfl, rfl, by decide, ?_⟩⟩
  obtain rfl | rfl := hi
  · exact .inl ⟨rfl, rfl, x.isLt⟩
  · exact .inr ⟨rfl, rfl, x.le_toInt, x.toInt_lt⟩

theorem inv_startDecode {s : State} {i : Instr} (hi : i = .decU ∨ i = .decS) :
    ({ s.startCommand i with acc := some 0, shift := some 0 } : State).Inv := by
  refine (State.inv_iff_of_run rfl).2 ⟨⟨rfl, rfl, rfl, rfl⟩, .inr ⟨?_, rfl, rfl, rfl, 0, 0, 0, rfl, rfl, ?_⟩⟩
  · obtain rfl | rfl := hi
    · exact .inl rfl
    · exact .inr rfl
  · exact ⟨by decide, rfl, by decide, fun _ => rfl, nofun⟩

/-- An ending by `OK` (R25): an encoder's `RESULT` is a length. -/
theorem inv_outcome_ok {s : State} {d : Word} (ho : s.op = some s.lastOp)
    (hd : s.lastOp.getLsbD 1 = false → 1 ≤ d.toNat ∧ d.toNat ≤ 19) : (s.outcome .ok 0 (some d)).Inv := by
  refine (State.inv_iff_of_idle rfl).2 ⟨rfl, rfl, rfl, rfl, rfl, rfl, ?_, ?_, ?_, ?_, ?_, ?_, ?_, ?length⟩
  case length =>
    rintro hbit _ ⟨⟩
    exact hd hbit
  all_goals simp [ho]

/-- An ending by `IO_ERROR` (R26): `IO_KIND` is a kind the command's stream gives. -/
theorem inv_outcome_ioError {s : State} {kind : BitVec 2} (ho : s.op = some s.lastOp)
    (henc : s.lastOp.getLsbD 1 = false → kind = 1 ∨ kind = 2) (hdec : s.lastOp.getLsbD 1 = true → kind = 0 ∨ kind = 2) :
    (s.outcome .ioError kind none).Inv := by
  refine (State.inv_iff_of_idle rfl).2 ⟨rfl, rfl, rfl, rfl, rfl, rfl, ?_, ?_, ?_, ?_, fun _ => henc, fun _ => hdec, ?_, ?_⟩
  all_goals simp [ho]

/-- An ending by `OVERFLOW` (R26): only a decode overflows. -/
theorem inv_outcome_overflow {s : State} (ho : s.op = some s.lastOp) (hdec : s.lastOp.getLsbD 1 = true) :
    (s.outcome .overflow 0 none).Inv := by
  refine (State.inv_iff_of_idle rfl).2 ⟨rfl, rfl, rfl, rfl, rfl, rfl, ?_, ?_, ?_, ?_, ?_, ?_, fun _ => hdec, ?_⟩
  all_goals simp [ho]

theorem sinkKind_eq (e : SinkFail) : sinkKind e = 1 ∨ sinkKind e = 2 := by cases e <;> simp [sinkKind]

theorem sourceKind_eq (e : SourceFail) : sourceKind e = 0 ∨ sourceKind e = 2 := by cases e <;> simp [sourceKind]

/-! ### A group of an encode -/

/-- After `c` groups an unsigned value with another group to come leaves room for it (R71). -/
theorem unsigned_room {x c : Nat} (h : x < 2 ^ (128 - 7 * c)) (hx : 128 ≤ x) :
    c + 1 ≤ 18 ∧ x / 128 < 2 ^ (128 - 7 * (c + 1)) := by
  have hpow : 2 ^ 7 < 2 ^ (128 - 7 * c) := lt_of_le_of_lt hx h
  have hc : 7 < 128 - 7 * c := (Nat.pow_lt_pow_iff_right (by decide)).1 hpow
  refine ⟨by omega, Nat.div_lt_of_lt_mul ?_⟩
  rwa [show 128 - 7 * c = 7 + (128 - 7 * (c + 1)) by omega, pow_add] at h

/-- After `c` groups a signed value with another group to come leaves room for it (R74). -/
theorem signed_room {x : Int} {c : Nat} (lo : -(2 ^ (127 - 7 * c) : Int) ≤ x) (hi : x < 2 ^ (127 - 7 * c))
    (hx : ¬ (-64 ≤ x ∧ x ≤ 63)) :
    c + 1 ≤ 18 ∧ -(2 ^ (127 - 7 * (c + 1)) : Int) ≤ x / 128 ∧ x / 128 < 2 ^ (127 - 7 * (c + 1)) := by
  have hpow : (2 : Int) ^ 6 < 2 ^ (127 - 7 * c) := by omega
  have hc : 6 < 127 - 7 * c := (pow_lt_pow_iff_right₀ (by decide)).1 hpow
  rw [show 127 - 7 * c = 7 + (127 - 7 * (c + 1)) by omega, pow_add] at lo hi
  refine ⟨by omega, ?_, ?_⟩ <;> omega

theorem ushiftRight_seven_toNat (x : Word) : (x >>> 7).toNat = x.toNat / 128 := by
  simp [Nat.shiftRight_eq_div_pow]

theorem signedRest_toInt (x : Word) (h : ¬ (-64 ≤ x.toInt ∧ x.toInt ≤ 63)) : (signedRest x).toInt = x.toInt / 128 := by
  have hi := BitVec.toInt_lt (x := x)
  have lo := BitVec.le_toInt (x := x)
  rw [signedRest_eq x h, BitVec.toInt_ofInt, Int.bmod_eq_of_le] <;> omega

theorem count_succ_toNat {c : BitVec 5} (h : c.toNat ≤ 18) : (c + 1).toNat = c.toNat + 1 := by
  bv_omega

theorem inv_unsignedGroup {s : State} {x : Word} {c : BitVec 5} {k : Sink} (h : s.Inv) (ho : s.op = some Instr.encU.op)
    (hr : EncodeRequest .encU s x c (some .ok) k) (hx : 128 ≤ x.toNat) :
    ({ s with snk := k, v := some (x >>> 7), count := some (c + 1) } : State).Inv := by
  obtain ⟨hacc, hshift, hb, y, d, hv, hc, hd, hroom⟩ := h.encodeInv hr.run hr.encodes ho
  cases hr.v.symm.trans hv
  cases hr.count.symm.trans hc
  obtain ⟨-, hdone, hlt⟩ | ⟨hop, -⟩ := hroom
  · obtain ⟨hcount, hrest⟩ := unsigned_room hlt hx
    have hsucc := count_succ_toNat hd
    refine (State.inv_iff_of_run (by exact hr.run)).2
      ⟨h.busyInv hr.busy, .inl ⟨hacc, hshift, hb, _, _, rfl, rfl, hsucc ▸ hcount, .inl ⟨ho, hdone, ?_⟩⟩⟩
    rwa [hsucc, ushiftRight_seven_toNat]
  · simp [ho, Instr.op] at hop

theorem inv_signedGroup {s : State} {x : Word} {c : BitVec 5} {k : Sink} (h : s.Inv) (ho : s.op = some Instr.encS.op)
    (hr : EncodeRequest .encS s x c (some .ok) k) (hx : ¬ (-64 ≤ x.toInt ∧ x.toInt ≤ 63)) :
    ({ s with snk := k, v := some (signedRest x), done := some false, count := some (c + 1) } : State).Inv := by
  obtain ⟨hacc, hshift, hb, y, d, hv, hc, hd, hroom⟩ := h.encodeInv hr.run hr.encodes ho
  cases hr.v.symm.trans hv
  cases hr.count.symm.trans hc
  obtain ⟨hop, -⟩ | ⟨-, -, hlo, hhi⟩ := hroom
  · simp [ho, Instr.op] at hop
  · obtain ⟨hcount, hrest⟩ := signed_room hlo hhi hx
    have hsucc := count_succ_toNat hd
    have hne : c + 1 ≠ 0 := by bv_omega
    refine (State.inv_iff_of_run (by exact hr.run)).2
      ⟨h.busyInv hr.busy, .inl ⟨hacc, hshift, hb, _, _, rfl, rfl, hsucc ▸ hcount, .inr ⟨ho, (if_neg hne).symm, ?_⟩⟩⟩
    rwa [hsucc, signedRest_toInt x hx]

/-- The length an encode ends with is 1 to 19 (R56). -/
theorem inv_lastGroup {s : State} {i : Instr} {x : Word} {c : BitVec 5} {k : Sink} (h : s.Inv) (ho : s.op = some i.op)
    (hr : EncodeRequest i s x c (some .ok) k) :
    ({ s with snk := k }.outcome .ok 0 (some ((c + 1).setWidth 128))).Inv := by
  obtain ⟨hop, -⟩ := h.busyInv hr.busy
  have hc := (h.encodeInv hr.run hr.encodes ho).count_le hr.count
  have hlen : ((c + 1).setWidth 128).toNat = c.toNat + 1 := by
    rw [BitVec.toNat_setWidth_of_le (by decide), count_succ_toNat hc]
  exact inv_outcome_ok hop fun _ => by omega

/-! ### A byte of a decode -/

/-- A permitted byte is a terminal one (R85). -/
theorem contBit_of_mem_permitOf {i : Instr} {p : BoundarySet} {b : Byte} (h : b ∈ permitOf i p) : contBit b = false := by
  have all : ∀ b ∈ permitOf i p, contBit b = false := by cases i <;> cases p <;> decide
  exact all b h

/-- The guard lets no byte with bit 7 set pass at shift 126 (R84, R85). -/
theorem shift_ne_boundary {i : Instr} {p : BoundarySet} {sh : BitVec 8} {b : Byte}
    (hg : guardFails (permitOf i p) sh b = false) (hb : contBit b = true) : sh ≠ Config.boundary := by
  rintro rfl
  have hmem : b ∈ permitOf i p := by simpa [guardFails] using hg
  simp [contBit_of_mem_permitOf hmem] at hb

theorem shift_add_seven_toNat {sh : BitVec 8} {j : Nat} (h : sh.toNat = 7 * j) (hj : j ≤ 18) :
    (sh + 7).toNat = 7 * (j + 1) := by
  rw [BitVec.toNat_add, h]
  simp
  omega

theorem inv_placesGroup {s : State} {i : Instr} {a : Word} {sh : BitVec 8} {b : Byte} {q : Source} (h : s.Inv)
    (ho : s.op = some i.op) (hr : DecodeRequest i s (some (.byte b)) q) (hp : s.phase = .run) (ha : s.acc = some a)
    (hs : s.shift = some sh) (hg : guardFails (permitOf i s.config.boundarySet) sh b = false) (hb : contBit b = true) :
    ({ s with src := q, b := some b, acc := some (placeGroup a b sh), shift := some (sh + 7) } : State).Inv := by
  obtain ⟨hop, hv, hdone, hcount, a', sh', j, ha', hs', hj, hshift, hlt, -, -⟩ := h.decodeInv hp hr.decodes ho
  cases ha.symm.trans ha'
  cases hs.symm.trans hs'
  have hj17 : j ≠ 18 := by
    rintro rfl
    exact shift_ne_boundary hg hb (BitVec.eq_of_toNat_eq hshift)
  exact (State.inv_iff_of_run (by exact hp)).2 ⟨h.busyInv hr.busy, .inr
    ⟨hop, hv, hdone, hcount, _, _, j + 1, rfl, rfl, by omega,
    shift_add_seven_toNat hshift hj, placeGroup_lt hshift hlt, nofun, fun _ => ⟨b, rfl, hb⟩⟩⟩

/-- What a decode at shift 126 or in its drain holds, which `DRAIN` keeps (R84, R86). -/
theorem drainInv_registers {s : State} {i : Instr} {b : Byte} {q : Source} (h : s.Inv) (ho : s.op = some i.op)
    (hr : DecodeRequest i s (some (.byte b)) q) (hs : s.phase = .run → s.shift = some Config.boundary) :
    s.v = none ∧ s.done = none ∧ s.count = none ∧ (∃ a, s.acc = some a ∧ a.toNat < 2 ^ 126) ∧
      s.shift = some Config.boundary := by
  obtain hp | ⟨hp, -⟩ := hr.asks
  · obtain ⟨-, hv, hdone, hcount, a, sh, j, ha, hsh, -, hshift, hlt, -, -⟩ := h.decodeInv hp hr.decodes ho
    cases (hs hp).symm.trans hsh
    obtain rfl : j = 18 := by simp at hshift; omega
    exact ⟨hv, hdone, hcount, ⟨a, ha, hlt⟩, hsh⟩
  · obtain ⟨-, hv, hdone, hcount, hacc, hshift, -⟩ := h.drainInv hp
    exact ⟨hv, hdone, hcount, hacc, hshift⟩

theorem inv_drains {s : State} {i : Instr} {b : Byte} {q : Source} (h : s.Inv) (ho : s.op = some i.op)
    (hr : DecodeRequest i s (some (.byte b)) q) (hb : contBit b = true)
    (hs : s.phase = .run → s.shift = some Config.boundary) :
    ({ s with src := q, b := some b, phase := .drain } : State).Inv := by
  obtain ⟨hv, hdone, hcount, hacc, hshift⟩ := drainInv_registers h ho hr hs
  refine (State.inv_iff_of_drain rfl).2
    ⟨h.busyInv hr.busy, ?_, hv, hdone, hcount, hacc, hshift, b, rfl, hb⟩
  obtain rfl | rfl := hr.decodes
  · exact .inl ho
  · exact .inr ho

/-! ### Every step keeps the invariant -/

/-- A step of the latched command, or of any command on an idle core, keeps the invariant. -/
theorem CommandStep.keeps_inv {i : Instr} {s t : State} (hstep : CommandStep s i t) (h : s.Inv)
    (ho : s.phase ≠ .idle → s.op = some i.op) : t.Inv := by
  cases hstep with
  | startEncode hi => exact inv_startEncode hi
  | startDecode hi => exact inv_startDecode hi
  | sinkWaits | sourceWaits => exact h
  | sinkFails hr =>
    obtain ⟨hop, -⟩ := h.busyInv hr.busy
    have hbit := h.lastOp_eq hr.busy (ho hr.busy) ▸ op_bit_of_encode hr.encodes
    exact inv_outcome_ioError hop (fun _ => sinkKind_eq _) (fun hdec => (Bool.false_ne_true (hbit.symm.trans hdec)).elim)
  | lastGroup hr => exact inv_lastGroup h (ho hr.busy) hr
  | unsignedGroup hr hx => exact inv_unsignedGroup h (ho hr.busy) hr hx
  | signedGroup hr hx => exact inv_signedGroup h (ho hr.busy) hr hx
  | sourceFails hr =>
    obtain ⟨hop, -⟩ := h.busyInv hr.busy
    have hbit := h.lastOp_eq hr.busy (ho hr.busy) ▸ op_bit_of_decode hr.decodes
    exact inv_outcome_ioError hop (fun henc => (Bool.false_ne_true (henc.symm.trans hbit)).elim) (fun _ => sourceKind_eq _)
  | placesGroup hr hp ha hs hg hb => exact inv_placesGroup h (ho hr.busy) hr hp ha hs hg hb
  | terminalByte d hr =>
    obtain ⟨hop, -⟩ := h.busyInv hr.busy
    have hbit := h.lastOp_eq hr.busy (ho hr.busy) ▸ op_bit_of_decode hr.decodes
    exact inv_outcome_ok hop fun henc => (Bool.false_ne_true (henc.symm.trans hbit)).elim
  | drains hr hb hs => exact inv_drains h (ho hr.busy) hr hb hs
  | overflows hr =>
    obtain ⟨hop, -⟩ := h.busyInv hr.busy
    exact inv_outcome_overflow hop (h.lastOp_eq hr.busy (ho hr.busy) ▸ op_bit_of_decode hr.decodes)
  | drained hi hp =>
    have hbusy : s.phase ≠ .idle := by simp [hp]
    obtain ⟨hop, -⟩ := h.busyInv hbusy
    exact inv_outcome_overflow hop (h.lastOp_eq hbusy (ho hbusy) ▸ op_bit_of_decode hi)

/-- Settles O30, by the effects a step can have: a command's step keeps the invariant, reset meets it, and the invariant
speaks of nothing that another action changes. -/
theorem stepKeepsInvariant : Obligations.StepKeepsInvariant := by
  intro s t h hstep
  cases StepEffect.of_step hstep with
  | starts _ hp ht => exact ht.keeps_inv h (absurd hp)
  | runs _ ho ht => exact ht.keeps_inv h fun _ => by rw [op_instrOfOp]; exact ho
  | resets => exact resetMeetsInvariant
  | leavesCore | refusesCmd | writesValue | connectsSource | connectsSink => exact h

end Sys2Proof.Machine

/-! # The streams (20_memory.md): O16, O23 and O36 -/

namespace Sys2Proof.Machine

/-! ### The byte a request moves -/

/-- The bytes a source's answer hands over: the supplied byte, or none (R36, R38). -/
def bytesSupplied : Option ReadAnswer → List Byte
  | some (.byte b) => [b]
  | some (.fail _) => []
  | none => []

/-- The bytes a sink takes by its answer to the offered byte `b`: that byte, or none (R37, R38). -/
def bytesAccepted (b : Byte) : Option WriteAnswer → List Byte
  | some .ok => [b]
  | some (.fail _) => []
  | none => []

/-- A read request consumes exactly what its answer hands over. -/
theorem Source.taken_of_read {q q' : Source} {a : Option ReadAnswer} (h : q.read = (a, q')) :
    q'.taken = q.taken ++ bytesSupplied a := by
  obtain ⟨_, hread, htaken⟩ | ⟨_, _, hread, htaken⟩ | ⟨_, _, hread, htaken⟩ := q.read_cases <;>
    cases hread.symm.trans h <;> simpa [bytesSupplied] using htaken

/-- A write request appends exactly what its answer takes. -/
theorem Sink.held_of_write {k k' : Sink} {b : Byte} {a : Option WriteAnswer} (h : k.write b = (a, k')) :
    k'.held = k.held ++ bytesAccepted b a := by
  obtain ⟨_, hwrite, hheld⟩ | ⟨_, _, hwrite, hheld⟩ | ⟨_, hwrite, hheld⟩ := k.write_cases b <;>
    cases hwrite.symm.trans h <;> simpa [bytesAccepted] using hheld

/-- Settles O16: each stream's record grows by the bytes its answer moves, which are one byte or none. -/
theorem requestMovesOneByteOrNone : Obligations.RequestMovesOneByteOrNone := by
  refine ⟨?supplied, ?sourceFails, ?sourceWaits, ?accepted, ?sinkFails, ?sinkWaits⟩
  case supplied => intro q q' b h; exact Source.taken_of_read h
  case sourceFails => intro q q' f h; simpa [bytesSupplied] using Source.taken_of_read h
  case sourceWaits => intro q q' h; simpa [bytesSupplied] using Source.taken_of_read h
  case accepted => intro k k' b h; exact Sink.held_of_write h
  case sinkFails => intro k k' b f h; simpa [bytesAccepted] using Sink.held_of_write h
  case sinkWaits => intro k k' b h; simpa [bytesAccepted] using Sink.held_of_write h

/-! ### Borrowed streams -/

/-- `OP` holds command `i` just where it holds its code (R58). -/
theorem map_instrOfOp_eq_some_iff {o : Option (BitVec 2)} {i : Instr} : o.map instrOfOp = some i ↔ o = some i.op := by
  constructor
  · intro h
    obtain ⟨c, rfl, rfl⟩ := Option.map_eq_some_iff.1 h
    rw [op_instrOfOp]
  · rintro rfl
    rw [Option.map_some, instrOfOp_op]

/-- A running decode borrows the source (R33, R43). -/
theorem State.borrowsSource_iff (s : State) :
    s.borrowsSource = true ↔ s.phase ≠ .idle ∧ (s.op = some Instr.decU.op ∨ s.op = some Instr.decS.op) := by
  simp only [State.borrowsSource, Bool.and_eq_true, Bool.or_eq_true, beq_iff_eq, State.busy_eq_true_iff,
    map_instrOfOp_eq_some_iff]

/-- A running encode borrows the sink (R33, R43). -/
theorem State.borrowsSink_iff (s : State) :
    s.borrowsSink = true ↔ s.phase ≠ .idle ∧ (s.op = some Instr.encU.op ∨ s.op = some Instr.encS.op) := by
  simp only [State.borrowsSink, Bool.and_eq_true, Bool.or_eq_true, beq_iff_eq, State.busy_eq_true_iff,
    map_instrOfOp_eq_some_iff]

theorem step_connectSource {s : State} {q : Source} {rest : List Move} (ha : s.agenda = .connectSource q :: rest) :
    step s = if s.borrowsSource then .refused .streamBorrowed else .next { s with agenda := rest, src := q } :=
  step_of_cons ha

theorem step_connectSink {s : State} {k : Sink} {rest : List Move} (ha : s.agenda = .connectSink k :: rest) :
    step s = if s.borrowsSink then .refused .streamBorrowed else .next { s with agenda := rest, snk := k } :=
  step_of_cons ha

/-- Settles O23: a decode borrows the source alone and an encode the sink alone, so an idle core and a command of the
other direction leave the stream free. -/
theorem borrowedStreamHasNoOtherUser : Obligations.BorrowedStreamHasNoOtherUser := by
  intro s
  refine ⟨fun q rest ha => ?source, fun k rest ha => ?sink⟩
  case source =>
    rw [step_connectSource ha]
    refine ⟨fun hp ho => if_pos (s.borrowsSource_iff.2 ⟨hp, ho⟩), fun hfree => if_neg fun hborrows => ?_⟩
    obtain ⟨hp, ho⟩ := s.borrowsSource_iff.1 hborrows
    obtain hidle | henc | henc := hfree
    · exact hp hidle
    · simp [henc, Instr.op] at ho
    · simp [henc, Instr.op] at ho
  case sink =>
    rw [step_connectSink ha]
    refine ⟨fun hp ho => if_pos (s.borrowsSink_iff.2 ⟨hp, ho⟩), fun hfree => if_neg fun hborrows => ?_⟩
    obtain ⟨hp, ho⟩ := s.borrowsSink_iff.1 hborrows
    obtain hidle | hdec | hdec := hfree
    · exact hp hidle
    · simp [hdec, Instr.op] at ho
    · simp [hdec, Instr.op] at ho

/-! ### The reference streams -/

/-- A source with an answer ahead gives that answer. -/
theorem Source.read_of_ahead {q : Source} {a : ReadAnswer} {rest : List ReadAnswer} (h : q.ahead = a :: rest) :
    q.read = (some a, Source.record { q with ahead := rest } a) := by
  simp [Source.read, h]

/-- A sink with an answer ahead gives that answer. -/
theorem Sink.write_of_ahead {k : Sink} {a : WriteAnswer} {rest : List WriteAnswer} (b : Byte) (h : k.ahead = a :: rest) :
    k.write b = (some a, Sink.record { k with ahead := rest } b a) := by
  simp [Sink.write, h]

/-- Before its end the reference source supplies the byte at its cursor, which moves past it. -/
theorem Source.read_reference_of_lt {bs : List Byte} {i : Nat} (h : i < bs.length) :
    (Source.reference bs i).read = (some (.byte bs[i]), Source.reference bs (i + 1)) := by
  have hahead : (Source.reference bs i).ahead = .byte bs[i] :: (Source.reference bs (i + 1)).ahead := by
    simp only [Source.reference]
    rw [List.drop_eq_getElem_cons h, List.map_cons]
  rw [Source.read_of_ahead hahead]
  simp [Source.reference, Source.record]

/-- At its end the reference source fails with `EOF`, and the cursor stays. -/
theorem Source.read_reference_of_le {bs : List Byte} {i : Nat} (h : bs.length ≤ i) :
    (Source.reference bs i).read = (some (.fail .eof), Source.reference bs i) := by
  simp [Source.reference, Source.read, List.drop_eq_nil_of_le h]

/-- With room left the bounded reference sink accepts, and has room for one byte less. -/
theorem Sink.write_reference_of_lt {held : List Byte} {cap : Nat} (b : Byte) (h : held.length < cap) :
    (Sink.reference held (some cap)).write b = (some .ok, Sink.reference (held ++ [b]) (some cap)) := by
  have hahead : (Sink.reference held (some cap)).ahead =
      .ok :: (Sink.reference (held ++ [b]) (some cap)).ahead := by
    have hroom : cap - held.length = cap - (held ++ [b]).length + 1 := by
      rw [List.length_append, List.length_singleton]
      omega
    simp only [Sink.reference]
    rw [hroom, List.replicate_succ]
  rw [Sink.write_of_ahead b hahead]
  rfl

/-- Without room the bounded reference sink refuses the byte and stays as it is. -/
theorem Sink.write_reference_of_le {held : List Byte} {cap : Nat} (b : Byte) (h : cap ≤ held.length) :
    (Sink.reference held (some cap)).write b = (some (.fail .refused), Sink.reference held (some cap)) := by
  simp [Sink.reference, Sink.write, Nat.sub_eq_zero_of_le h]

/-- Settles O36: each reference stream has an answer ahead exactly until its end or its capacity, and the unbounded sink
accepts by its tail. -/
theorem referenceStreams : Obligations.ReferenceStreams :=
  ⟨fun _ _ => Source.read_reference_of_lt, fun _ _ => Source.read_reference_of_le,
    fun _ _ => Sink.write_reference_of_lt, fun _ _ => Sink.write_reference_of_le, fun _ _ => rfl⟩

end Sys2Proof.Machine

/-! # The command word and the front end (30_encoding.md sections 3 and 5): O1, O2, O6 and O52 -/

namespace Sys2Proof.Machine

/-! ### The words that decode and the words that do not -/

/-- Settles O1: the command word of a command is the one that decodes to it. -/
theorem decodeOfEncode : Obligations.DecodeOfEncode :=
  fun _ _ => decode_eq_ok_iff.2 rfl

theorem encode_reserved (i : Instr) : (encode i).extractLsb' 2 5 = 0 := by cases i <;> rfl

/-- Settles O2: the table's words are the command words, and any word that decodes is the command word of its command. -/
theorem commandWordsDecode : Obligations.CommandWordsDecode := by
  refine ⟨⟨?encU, ?encS, ?decU, ?decS⟩, fun w i hw => ?_⟩
  case encU | encS | decU | decS => exact decode_eq_ok_iff.2 rfl
  obtain rfl := decode_eq_ok_iff.1 hw
  exact ⟨encode_start i, encode_reserved i, rfl⟩

/-- A word with `START` = 0 is no command, whatever the other bits (R59). -/
theorem decode_of_start_clear {w : Byte} (hs : startField w = false) : decode w = .error .startClear := by
  simp [decode, hs]

theorem decode_of_reserved_set {w : Byte} (hs : startField w = true) (hr : reservedField w ≠ 0#5) :
    decode w = .error .reservedSet := by
  rw [decode, if_pos hs, if_neg hr]

theorem decode_of_reserved_clear {w : Byte} (hs : startField w = true) (hr : reservedField w = 0#5) :
    decode w = .ok (instrOfOp (opField w)) := by
  rw [decode, if_pos hs, if_pos hr]

/-- Settles O6: the decoder sorts the words by `START` and then by the reserved bits, and a word it takes is the command word
of one of the four commands. -/
theorem cmdWritesThatStartNothing : Obligations.CmdWritesThatStartNothing := by
  intro s w rest ha
  refine ⟨fun hs => ?_, fun hs hr => ?_, fun hs hr => ?_⟩
  · rw [step_of_cons ha, takeMove, writeCmd, decode_of_start_clear hs]
  · rw [step_of_cons ha, takeMove, writeCmd, decode_of_reserved_set hs hr]
    rfl
  · have hw : w = encode (instrOfOp (opField w)) := decode_eq_ok_iff.1 (decode_of_reserved_clear hs hr)
    cases hi : instrOfOp (opField w) with
    | encU => exact .inl (hi ▸ hw)
    | encS => exact .inr (.inl (hi ▸ hw))
    | decU => exact .inr (.inr (.inl (hi ▸ hw)))
    | decS => exact .inr (.inr (.inr (hi ▸ hw)))

/-! ### What the front end hands to the core -/

/-- A pattern stands for its literal: an unsigned one read as unsigned, a signed one as two's complement (R4). -/
theorem toNat_ofInt_of_range {x : Int} (h0 : 0 ≤ x) (h1 : x < 2 ^ 128) : ((BitVec.ofInt 128 x).toNat : Int) = x := by
  rw [BitVec.toNat_ofInt, Int.emod_eq_of_lt h0 (by exact_mod_cast h1), Int.toNat_of_nonneg h0]

theorem toInt_ofInt_of_range {x : Int} (h0 : -(2 ^ 127) ≤ x) (h1 : x < 2 ^ 127) : (BitVec.ofInt 128 x).toInt = x := by
  rw [BitVec.toInt_ofInt, Int.bmod_eq_of_le] <;> omega

/-- An argument that does not parse reaches nothing (R63). -/
theorem FrontEndCall.moves_of_not_wf {c : FrontEndCall} (h : c.wf = false) : c.moves = none := by
  simp [FrontEndCall.moves, h]

/-- Each pseudo-instruction writes its own command word and waits (R67). -/
theorem expand_encU (x : Int) :
    HostLine.expand (.encU x) = [.writeValue (BitVec.ofInt 128 x), .writeCmd (encode .encU), .wait] := rfl

theorem expand_encS (x : Int) :
    HostLine.expand (.encS x) = [.writeValue (BitVec.ofInt 128 x), .writeCmd (encode .encS), .wait] := rfl

theorem expand_decU : HostLine.expand .decU = [.writeCmd (encode .decU), .wait] := rfl

theorem expand_decS : HostLine.expand .decS = [.writeCmd (encode .decS), .wait] := rfl

/-- Settles O52: a verb's moves end in the expansion of its own pseudo-instruction, which writes its command word. -/
theorem frontEndVerbsCallOneCommand : Obligations.FrontEndVerbsCallOneCommand := by
  intro c
  refine ⟨fun h => ?wf, FrontEndCall.moves_of_not_wf, ?unsignedRange, ?signedRange⟩
  case unsignedRange | signedRange =>
    rintro x rfl hx
    refine FrontEndCall.moves_of_not_wf ?_
    simp only [FrontEndCall.wf, Bool.and_eq_false_iff, decide_eq_false_iff_not]
    omega
  case wf =>
    rw [FrontEndCall.moves.eq_def, if_pos h]
    cases c with
    | encodeUnsigned x =>
      obtain ⟨h0, h1⟩ : 0 ≤ x ∧ x < 2 ^ 128 := by simpa [FrontEndCall.wf] using h
      exact ⟨[.writeValue (BitVec.ofInt 128 x)], congrArg some (expand_encU x), rfl, toNat_ofInt_of_range h0 h1⟩
    | encodeSigned x =>
      obtain ⟨h0, h1⟩ : -(2 ^ 127) ≤ x ∧ x < 2 ^ 127 := by simpa [FrontEndCall.wf] using h
      exact ⟨[.writeValue (BitVec.ofInt 128 x)], congrArg some (expand_encS x), rfl, toInt_ofInt_of_range h0 h1⟩
    | decodeUnsigned bs => exact ⟨[.connectSource (Source.reference bs 0)], congrArg (some <| _ :: ·) expand_decU, rfl⟩
    | decodeSigned bs => exact ⟨[.connectSource (Source.reference bs 0)], congrArg (some <| _ :: ·) expand_decS, rfl⟩

end Sys2Proof.Machine

/-! # The byte format (30_encoding.md section 1): O32 and O33 -/

namespace Sys2Proof.Machine

/-! ### Bits and groups of a byte -/

theorem signBit_eq_true_iff (b : Byte) : signBit b = true ↔ 64 ≤ b.toNat % 128 := by
  have h : ∀ b : BitVec 8, b.getLsbD 6 = true ↔ 64 ≤ b.toNat % 128 := by decide
  exact h b

theorem contBit_ofNat {n : Nat} (h : n < 256) : contBit (BitVec.ofNat 8 n) = true ↔ 128 ≤ n := by
  rw [contBit_eq_true_iff, BitVec.toNat_ofNat, Nat.mod_eq_of_lt h]

/-- What a terminal byte adds to a signed value at its group's weight: its group, less 128 where bit 6 is set (R49, R52). -/
def signedGroup (b : Byte) : Int := (b.toNat % 128 : Nat) - if signBit b then 128 else 0

theorem signedGroup_bounds (b : Byte) : -64 ≤ signedGroup b ∧ signedGroup b ≤ 63 := by
  have h := signBit_eq_true_iff b
  unfold signedGroup
  split <;> rename_i hs <;> rw [h] at hs <;> omega

/-! ### What a list of bytes denotes -/

theorem isEncoding_ne_nil {e : List Byte} (h : isEncoding e = true) : e ≠ [] := by
  rintro rfl
  cases h

@[simp] theorem isEncoding_singleton (b : Byte) : isEncoding [b] = !contBit b := rfl

/-- An encoding of more than one byte is a byte with bit 7 set and an encoding (R48). -/
theorem isEncoding_cons {b : Byte} {e : List Byte} (he : e ≠ []) : isEncoding (b :: e) = (contBit b && isEncoding e) := by
  cases e with
  | nil => exact absurd rfl he
  | cons c e => rfl

theorem unsignedValue_lt (e : List Byte) : unsignedValue e < 2 ^ (7 * e.length) := by
  induction e with
  | nil => decide
  | cons b e ih =>
    rw [unsignedValue, List.length_cons, Nat.mul_succ, pow_add]
    omega

theorem signedValue_singleton (b : Byte) : signedValue [b] = signedGroup b := by
  cases h : signBit b <;> simp [signedValue, signedGroup, unsignedValue, h]

/-- A group before the last has its weight whatever the sign (R52). -/
theorem signedValue_cons {b : Byte} {e : List Byte} (he : e ≠ []) :
    signedValue (b :: e) = (b.toNat % 128 : Nat) + 128 * signedValue e := by
  obtain ⟨c, e, rfl⟩ := List.exists_cons_of_ne_nil he
  simp only [signedValue, List.getLast?_cons_cons, unsignedValue, List.length_cons]
  split
  · rw [Nat.mul_succ (7 : Nat) (e.length + 1), pow_add]
    push_cast
    ring
  · push_cast
    ring

/-- `n` groups denote signed values of 7n bits (R55). -/
theorem signedValue_bounds {e : List Byte} (he : e ≠ []) :
    -(2 ^ (7 * e.length - 1) : Int) ≤ signedValue e ∧ signedValue e ≤ 2 ^ (7 * e.length - 1) - 1 := by
  induction e with
  | nil => exact absurd rfl he
  | cons b e ih =>
    by_cases hnil : e = []
    · subst hnil
      rw [signedValue_singleton]
      exact signedGroup_bounds b
    · have hlen : 0 < e.length := List.length_pos_of_ne_nil hnil
      obtain ⟨lo, hi⟩ := ih hnil
      rw [signedValue_cons hnil, List.length_cons, show 7 * (e.length + 1) - 1 = 7 + (7 * e.length - 1) by omega, pow_add]
      constructor <;> omega

/-- Bit 6 of the last byte is the sign of the signed value (R52). -/
theorem signBit_getLast?_eq_sign {e : List Byte} (he : e ≠ []) :
    e.getLast?.map signBit = some (decide (signedValue e < 0)) := by
  have hlt : (unsignedValue e : Int) < 2 ^ (7 * e.length) := by exact_mod_cast unsignedValue_lt e
  rw [signedValue, List.getLast?_eq_some_getLast he]
  cases h : signBit (e.getLast he)
  · simp [h]
  · simp [h]
    omega

/-! ### The length of the minimal encoding -/

theorem bitLength_le_iff (x : Word) (n : Nat) : bitLength x ≤ n ↔ x.toNat < 2 ^ n := by
  unfold bitLength
  split
  · rename_i h
    simp [h]
  · exact Nat.log2_lt ‹_›

/-- The unsigned length is the smallest n ≥ 1 with v < 2^(7n) (R51, R54). -/
theorem unsignedLength_le_iff (x : Word) {n : Nat} (hn : 1 ≤ n) : unsignedLength x ≤ n ↔ x.toNat < 2 ^ (7 * n) := by
  rw [← bitLength_le_iff, unsignedLength]
  omega

theorem unsignedLength_pos (x : Word) : 1 ≤ unsignedLength x := Nat.le_max_left ..

theorem fitsSigned_iff (x : Word) (n : Nat) :
    fitsSigned x n = true ↔ -(2 ^ (7 * n - 1) : Int) ≤ x.toInt ∧ x.toInt ≤ 2 ^ (7 * n - 1) - 1 := by
  simp [fitsSigned]

theorem fitsSigned_mono {x : Word} {m n : Nat} (hmn : m ≤ n) (h : fitsSigned x m = true) : fitsSigned x n = true := by
  rw [fitsSigned_iff] at *
  have hpow : (2 : Int) ^ (7 * m - 1) ≤ 2 ^ (7 * n - 1) := pow_le_pow_right₀ (by decide) (by omega)
  omega

/-- 19 groups hold every 128-bit value (R56). -/
theorem fitsSigned_maxLen (x : Word) : fitsSigned x 19 = true := by
  have hi := BitVec.toInt_lt (x := x)
  have lo := BitVec.le_toInt (x := x)
  rw [fitsSigned_iff]
  omega

theorem signedLength_spec (x : Word) :
    1 ≤ signedLength x ∧ fitsSigned x (signedLength x) = true ∧
      ∀ n, 1 ≤ n → n < signedLength x → fitsSigned x n = false := by
  cases h : (List.range' 1 18).find? (fitsSigned x) with
  | some n =>
    obtain ⟨hfits, hmem, hleast⟩ := List.find?_range'_eq_some.1 h
    simp only [signedLength, h, Option.getD_some]
    exact ⟨(List.mem_range'_1.1 hmem).1, hfits, fun m h1 h2 => by simpa using hleast m h1 h2⟩
  | none =>
    have hnone := List.find?_range'_eq_none.1 h
    simp only [signedLength, h, Option.getD_none]
    exact ⟨by decide, fitsSigned_maxLen x, fun m h1 h2 => by simpa using hnone m h1 h2⟩

theorem signedLength_pos (x : Word) : 1 ≤ signedLength x := (signedLength_spec x).1

/-- The signed length is the smallest n ≥ 1 whose 7n bits hold the value (R53, R55). -/
theorem signedLength_le_iff (x : Word) {n : Nat} (hn : 1 ≤ n) : signedLength x ≤ n ↔ fitsSigned x n = true := by
  obtain ⟨-, hfits, hleast⟩ := signedLength_spec x
  refine ⟨fun h => fitsSigned_mono h hfits, fun h => ?_⟩
  by_contra hlt
  simp [hleast n hn (by omega)] at h

/-! ### The minimal encoding, group by group -/

/-- The group of this value is the last of its encoding (R70, R74). -/
def isLastGroup : Instr → Word → Prop
  | .encU, x => x.toNat < 128
  | .encS, x => -64 ≤ x.toInt ∧ x.toInt ≤ 63
  | .decU, _ => False
  | .decS, _ => False

/-- The value that remains after a group that is not the last (R70, R73). -/
def restValue : Instr → Word → Word
  | .encU, x => x >>> 7
  | .encS, x => signedRest x
  | .decU, x => x
  | .decS, x => x

theorem encodingOf_length_pos {i : Instr} (hi : i = .encU ∨ i = .encS) (x : Word) : 1 ≤ (encodingOf i x).length := by
  obtain rfl | rfl := hi
  · simpa [encodingOf, unsignedEncoding] using unsignedLength_pos x
  · simpa [encodingOf, signedEncoding] using signedLength_pos x

theorem unsignedLength_of_last {x : Word} (h : isLastGroup .encU x) : unsignedLength x = 1 :=
  le_antisymm ((unsignedLength_le_iff x le_rfl).2 h) (unsignedLength_pos x)

theorem signedLength_of_last {x : Word} (h : isLastGroup .encS x) : signedLength x = 1 :=
  le_antisymm ((signedLength_le_iff x le_rfl).2 ((fitsSigned_iff x 1).2 h)) (signedLength_pos x)

/-- Two lengths known by their upper bounds: one is the other and one more where its upper bounds are. -/
theorem eq_succ_of_le_iff {l m : Nat} (hl : ¬ l ≤ 1) (hm : 1 ≤ m) (h : ∀ n, l ≤ n + 2 ↔ m ≤ n + 1) : l = m + 1 := by
  have hupper := h (m - 1)
  have hlower := h (m - 2)
  omega

theorem unsignedLength_of_not_last {x : Word} (h : ¬ isLastGroup .encU x) :
    unsignedLength x = unsignedLength (x >>> 7) + 1 := by
  refine eq_succ_of_le_iff (fun hle => h ((unsignedLength_le_iff x le_rfl).1 hle)) (unsignedLength_pos _) fun n => ?_
  rw [unsignedLength_le_iff x (by omega), unsignedLength_le_iff _ (by omega), ushiftRight_seven_toNat,
    Nat.div_lt_iff_lt_mul (by decide), show 7 * (n + 2) = 7 * (n + 1) + 7 by omega, pow_add]
  rfl

theorem signedLength_of_not_last {x : Word} (h : ¬ isLastGroup .encS x) :
    signedLength x = signedLength (signedRest x) + 1 := by
  refine eq_succ_of_le_iff (fun hle => h ((fitsSigned_iff x 1).1 ((signedLength_le_iff x le_rfl).1 hle)))
    (signedLength_pos _) fun n => ?_
  rw [signedLength_le_iff x (by omega), signedLength_le_iff _ (by omega), fitsSigned_iff, fitsSigned_iff,
    signedRest_toInt x h, show 7 * (n + 2) - 1 = 7 + (7 * (n + 1) - 1) by omega, pow_add]
  omega

/-- An encoder's byte is the format's byte of its group, with bit 7 set unless the group is the last (R48). -/
theorem groupByte_of_last {i : Instr} {x : Word} (h : isLastGroup i x) :
    groupByte i x = formatByte (x.toNat % 128) false := by
  cases i with
  | encU => rw [groupByte, unsignedByte_eq, if_neg (Nat.not_le.2 h)]; rfl
  | encS => rw [groupByte, signedByte_eq, if_pos (by exact h), toInt_emod_eq_toNat_mod]; rfl
  | decU => exact h.elim
  | decS => exact h.elim

theorem groupByte_of_not_last {i : Instr} {x : Word} (hi : i = .encU ∨ i = .encS) (h : ¬ isLastGroup i x) :
    groupByte i x = formatByte (x.toNat % 128) true := by
  obtain rfl | rfl := hi
  · rw [groupByte, unsignedByte_eq, if_pos (Nat.le_of_not_lt h)]; rfl
  · rw [groupByte, signedByte_eq, if_neg (by exact h), toInt_emod_eq_toNat_mod]; rfl

/-- A value in its last group is encoded by the one byte the command offers for it. -/
theorem encodingOf_of_last {i : Instr} {x : Word} (h : isLastGroup i x) : encodingOf i x = [groupByte i x] := by
  rw [groupByte_of_last h]
  cases i with
  | encU => simp [encodingOf, unsignedEncoding, unsignedLength_of_last h]
  | encS => simp [encodingOf, signedEncoding, signedLength_of_last h, toInt_emod_eq_toNat_mod]
  | decU => exact h.elim
  | decS => exact h.elim

/-- Taking the first group off a list of groups numbers the others from 0 again. -/
theorem map_formatByte_range_succ (group : Nat → Nat) {n : Nat} (hn : 1 ≤ n) :
    (List.range (n + 1)).map (fun i => formatByte (group i) (i + 1 < n + 1)) =
      formatByte (group 0) true :: (List.range n).map fun i => formatByte (group (i + 1)) (i + 1 < n) := by
  rw [List.range_succ_eq_map, List.map_cons, List.map_map]
  congr 1
  · rw [decide_eq_true (by omega)]
  · refine List.map_congr_left fun i _ => congrArg (formatByte _) ?_
    exact decide_eq_decide.2 (by omega)

/-- Any other value is encoded by the byte the command offers for it and the encoding of the value that remains. -/
theorem encodingOf_of_not_last {i : Instr} {x : Word} (hi : i = .encU ∨ i = .encS) (h : ¬ isLastGroup i x) :
    encodingOf i x = groupByte i x :: encodingOf i (restValue i x) := by
  rw [groupByte_of_not_last hi h]
  obtain rfl | rfl := hi
  · rw [encodingOf, unsignedEncoding, unsignedLength_of_not_last h, map_formatByte_range_succ _ (unsignedLength_pos _),
      pow_zero, Nat.div_one]
    refine congrArg _ (List.map_congr_left fun i _ => congrArg (formatByte · _) ?_)
    rw [restValue, ushiftRight_seven_toNat, Nat.div_div_eq_div_mul, ← pow_succ']
  · rw [encodingOf, signedEncoding, signedLength_of_not_last h, map_formatByte_range_succ _ (signedLength_pos _),
      pow_zero, Int.ediv_one, toInt_emod_eq_toNat_mod]
    refine congrArg _ (List.map_congr_left fun i _ => congrArg (formatByte · _) ?_)
    rw [restValue, signedRest_toInt x h, Int.ediv_ediv_of_nonneg (by decide), ← pow_succ']

/-! ### The minimal encodings denote their values -/

/-- Bits 6:0 are the value's low group (R57). -/
theorem groupByte_toNat_mod {i : Instr} {x : Word} (hi : i = .encU ∨ i = .encS) :
    (groupByte i x).toNat % 128 = x.toNat % 128 := by
  by_cases h : isLastGroup i x
  · rw [groupByte_of_last h, formatByte]
    simp
  · rw [groupByte_of_not_last hi h, formatByte]
    simp

/-- Bit 7 is set just when more groups follow (R48). -/
theorem contBit_groupByte {i : Instr} {x : Word} (hi : i = .encU ∨ i = .encS) :
    contBit (groupByte i x) = true ↔ ¬ isLastGroup i x := by
  by_cases h : isLastGroup i x
  · rw [groupByte_of_last h, formatByte, contBit_ofNat (by simp; omega)]
    simp [h]
    omega
  · rw [groupByte_of_not_last hi h, formatByte, contBit_ofNat (by simp; omega)]
    simp [h]

/-- Groups are offered until the last one: the induction of both encoders (R70, R73). -/
theorem encoding_induction {i : Instr} (hi : i = .encU ∨ i = .encS) {motive : Word → Prop}
    (last : ∀ x, isLastGroup i x → motive x) (more : ∀ x, ¬ isLastGroup i x → motive (restValue i x) → motive x)
    (x : Word) : motive x := by
  induction h : (encodingOf i x).length generalizing x with
  | zero => have := encodingOf_length_pos hi x; omega
  | succ n ih =>
    by_cases hl : isLastGroup i x
    · exact last x hl
    · rw [encodingOf_of_not_last hi hl, List.length_cons] at h
      exact more x hl (ih _ (by omega))

theorem encodingOf_ne_nil {i : Instr} (hi : i = .encU ∨ i = .encS) (x : Word) : encodingOf i x ≠ [] :=
  List.ne_nil_of_length_pos (encodingOf_length_pos hi x)

theorem isEncoding_encodingOf {i : Instr} (hi : i = .encU ∨ i = .encS) (x : Word) : isEncoding (encodingOf i x) = true := by
  induction x using encoding_induction hi with
  | last x h => simp [encodingOf_of_last h, Bool.eq_false_iff, contBit_groupByte hi, h]
  | more x h ih =>
    rw [encodingOf_of_not_last hi h, isEncoding_cons (encodingOf_ne_nil hi _), (contBit_groupByte hi).2 h, ih]
    rfl

theorem unsignedValue_unsignedEncoding (x : Word) : unsignedValue (unsignedEncoding x) = x.toNat := by
  have hi : Instr.encU = .encU ∨ Instr.encU = .encS := .inl rfl
  induction x using encoding_induction hi with
  | last x h =>
    have hx : x.toNat < 128 := h
    have hbyte := groupByte_toNat_mod (x := x) hi
    rw [← encodingOf, encodingOf_of_last h, unsignedValue, unsignedValue]
    omega
  | more x h ih =>
    have hbyte := groupByte_toNat_mod (x := x) hi
    have hrest : unsignedValue (encodingOf .encU (restValue .encU x)) = x.toNat / 128 :=
      ih.trans (ushiftRight_seven_toNat x)
    rw [← encodingOf, encodingOf_of_not_last hi h, unsignedValue]
    omega

theorem signedValue_signedEncoding (x : Word) : signedValue (signedEncoding x) = x.toInt := by
  have hi : Instr.encS = .encU ∨ Instr.encS = .encS := .inr rfl
  induction x using encoding_induction hi with
  | last x h =>
    have hx : -64 ≤ x.toInt ∧ x.toInt ≤ 63 := h
    have hbyte := groupByte_toNat_mod (x := x) hi
    have hmod := toInt_emod_eq_toNat_mod x
    have hsign := signBit_eq_true_iff (groupByte .encS x)
    rw [← encodingOf, encodingOf_of_last h, signedValue_singleton, signedGroup]
    split <;> rename_i hs <;> rw [hsign] at hs <;> omega
  | more x h ih =>
    have hbyte := groupByte_toNat_mod (x := x) hi
    have hmod := toInt_emod_eq_toNat_mod x
    have hrest : signedValue (encodingOf .encS (restValue .encS x)) = x.toInt / 128 := ih.trans (signedRest_toInt x h)
    rw [← encodingOf, encodingOf_of_not_last hi h, signedValue_cons (encodingOf_ne_nil hi _)]
    omega

@[simp] theorem unsignedEncoding_length (x : Word) : (unsignedEncoding x).length = unsignedLength x := by
  simp [unsignedEncoding]

@[simp] theorem signedEncoding_length (x : Word) : (signedEncoding x).length = signedLength x := by
  simp [signedEncoding]

/-- Settles O32: the unsigned length is the least number of groups that hold the value, and an encoding holds the value it
denotes. -/
theorem unsignedEncodingIsMinimal : Obligations.UnsignedEncodingIsMinimal := by
  intro x
  have hpos := unsignedLength_pos x
  have least : ∀ n, 1 ≤ n → x.toNat < 2 ^ (7 * n) → unsignedLength x ≤ n := fun n hn => (unsignedLength_le_iff x hn).2
  rw [unsignedEncoding_length]
  refine ⟨isEncoding_encodingOf (.inl rfl) x, unsignedValue_unsignedEncoding x, rfl, hpos, ?_, fun e he hv => ?_, least,
    (unsignedLength_le_iff x hpos).1 le_rfl⟩
  · exact least 19 (by decide) (x.isLt.trans (by decide))
  · exact least _ (List.length_pos_of_ne_nil (isEncoding_ne_nil he)) (hv ▸ unsignedValue_lt e)

/-- Settles O33: the signed length is the least number of groups that hold the value, an encoding holds the value it
denotes, and the sign of that value is bit 6 of the last byte. -/
theorem signedEncodingIsMinimal : Obligations.SignedEncodingIsMinimal := by
  intro x
  have hpos := signedLength_pos x
  have hvalue := signedValue_signedEncoding x
  have least : ∀ n, 1 ≤ n → fitsSigned x n = true → signedLength x ≤ n := fun n hn => (signedLength_le_iff x hn).2
  rw [signedEncoding_length]
  refine ⟨isEncoding_encodingOf (.inr rfl) x, hvalue, hpos, least 19 (by decide) (fitsSigned_maxLen x), fun e he hv => ?_,
    fun n hn lo hi => least n hn ((fitsSigned_iff x n).2 ⟨lo, hi⟩), ?_⟩
  · have hne := isEncoding_ne_nil he
    exact least _ (List.length_pos_of_ne_nil hne) ((fitsSigned_iff x _).2 (hv ▸ signedValue_bounds hne))
  · rw [BitVec.msb_eq_toInt, ← hvalue]
    exact signBit_getLast?_eq_sign (encodingOf_ne_nil (.inr rfl) x)

end Sys2Proof.Machine

/-! # A command's turns under a waiting host (30_encoding.md section 7, 70_reset_and_hazards.md section 2): O51 -/

namespace Sys2Proof.Machine

/-- `n` turns of the core lead from `s` to `t`, a command running before each of them. -/
inductive Turns : Nat → State → State → Prop
  | refl (s : State) : Turns 0 s s
  | turn {n : Nat} {s u t : State} (hp : s.phase ≠ .idle) (hturn : coreMove s = .next u) (hrest : Turns n u t) :
      Turns (n + 1) s t

/-- A turn is the latched command's step. -/
theorem Turns.of_exec {n : Nat} {i : Instr} {s u t : State} (hp : s.phase ≠ .idle) (ho : s.op = some i.op)
    (hstep : exec i s = .next u) (hrest : Turns n u t) : Turns (n + 1) s t := by
  refine .turn hp ?_ hrest
  rw [coreMove_of_busy hp ho, instrOfOp_op, hstep]

/-- Turns do not look at the host's side. -/
theorem Turns.withHost {n : Nat} {s t : State} (h : Turns n s t) (a : List Move) (r : Option Reading) :
    Turns n (s.withHost a r) (t.withHost a r) := by
  induction h with
  | refl s => exact .refl _
  | turn hp hturn _ ih => exact .turn hp (coreMove_withHost hturn) ih

/-- A run of more than no steps makes its first step. -/
theorem exists_step_of_reaches {n : Nat} {s t : State} (h : Reaches (n + 1) s t) :
    ∃ u, step s = .next u ∧ Reaches n u t := by
  cases hstep : step s with
  | next u => exact ⟨u, rfl, (reaches_succ hstep).1 h⟩
  | fault | refused => simp [Reaches, run_succ, hstep] at h

/-- With nothing on the agenda, a run in which a command runs before each step is as many turns. -/
theorem Turns.of_reaches {n : Nat} {s t : State} (ha : s.agenda = []) (h : Reaches n s t)
    (hbusy : ∀ m u, m < n → Reaches m s u → u.phase ≠ .idle) : Turns n s t := by
  induction n generalizing s with
  | zero =>
    cases h
    exact .refl _
  | succ n ih =>
    obtain ⟨u, hstep, hrest⟩ := exists_step_of_reaches h
    have hturn : coreMove s = .next u := (step_of_nil ha).symm.trans hstep
    refine .turn (hbusy 0 s (by omega) rfl) hturn (ih ((coreMove_agenda hturn).trans ha) hrest ?_)
    exact fun m v hm hv => hbusy (m + 1) v (by omega) ((reaches_succ hstep).2 hv)

/-- Under a waiting host each step is one poll and one turn, and one more poll finds that the command has ended
(log entry 12). -/
theorem Turns.reaches_of_wait {n : Nat} {s t : State} {rest : List Move} (h : Turns n s t) (ht : t.phase = .idle)
    (ha : s.agenda = .wait :: rest) :
    Reaches (n + 1) s (t.withHost rest (some (.status t.status))) := by
  induction n generalizing s t with
  | zero =>
    cases h
    exact (reaches_succ (step_wait_of_idle ht ha)).2 rfl
  | succ n ih =>
    cases h with
    | @turn _ _ u _ hp hturn hrest =>
      have hpoll : step s = .next (u.withHost s.agenda (some (.status s.status))) :=
        (step_wait_of_busy hp ha).trans (coreMove_withHost hturn)
      have hrun := ih (hrest.withHost s.agenda (some (.status s.status))) ht ha
      exact (reaches_succ hpoll).2 hrun

/-- A host that starts a command and waits sees the state that the command's start and turns lead to. -/
theorem reaches_of_start_wait {n : Nat} {i : Instr} {s u t : State} {rest : List Move} (hp : s.phase = .idle)
    (ha : s.agenda = .writeCmd (encode i) :: .wait :: rest) (hstart : exec i { s with agenda := .wait :: rest } = .next u)
    (h : Turns n u t) (ht : t.phase = .idle) :
    Reaches (n + 2) s (t.withHost rest (some (.status t.status))) := by
  have hstep := stepRunsWrittenCommand s _ i _ hp ha (decode_eq_ok_iff.2 rfl)
  obtain ⟨-, -, -, hagenda, -⟩ := (CommandStep.of_exec hstart).keeps_host
  exact (reaches_succ (hstep.trans hstart)).2 (h.reaches_of_wait ht hagenda)

/-- Settles O51: started alone or under a waiting host the command makes the same start and the same turns, and only the last
poll is more. -/
theorem waitSeesTheEnding : Obligations.WaitSeesTheEnding := by
  rintro s t i n rest ⟨hp, ha⟩ hn h ht hbusy
  obtain ⟨n, rfl⟩ := Nat.exists_eq_succ_of_ne_zero hn.ne'
  obtain ⟨u, hstep, hrest⟩ := exists_step_of_reaches h
  have hstart : exec i { s with agenda := [] } = .next u :=
    (stepRunsWrittenCommand s _ i _ hp ha (decode_eq_ok_iff.2 rfl)).symm.trans hstep
  obtain ⟨-, -, -, hagenda, -⟩ := (CommandStep.of_exec hstart).keeps_host
  have hturns : Turns n u t := .of_reaches hagenda hrest fun m v hm hv =>
    hbusy (m + 1) v (by omega) (by omega) ((reaches_succ hstep).2 hv)
  have hwaiting := exec_withHost (a := .wait :: rest) (r := s.readData) hstart
  have hrun := reaches_of_start_wait (s := { s with agenda := .writeCmd (encode i) :: .wait :: rest }) hp rfl hwaiting
    (hturns.withHost _ _) ht
  exact hrun

end Sys2Proof.Machine

/-! # Whole encodes (40_encoders.md sections 2 and 3): O48 -/

namespace Sys2Proof.Machine

/-! ### The turns of an encode -/

/-- A sink accepts a list of bytes by accepting the first and then the others. -/
theorem Sink.acceptAll_cons {k k' : Sink} {b : Byte} {bs : List Byte} (h : k.acceptAll (b :: bs) = some k') :
    ∃ k₁, k.write b = (some .ok, k₁) ∧ k₁.acceptAll bs = some k' := by
  rw [Sink.acceptAll] at h
  split at h
  · exact ⟨_, ‹_›, h⟩
  · cases h

/-- The last group ends the encode with the number of bytes written (R70, R73). -/
theorem EncodeRequest.exec_last {i : Instr} {s : State} {x : Word} {c : BitVec 5} {k : Sink}
    (hr : EncodeRequest i s x c (some .ok) k) (hl : isLastGroup i x) :
    exec i s = .next ({ s with snk := k }.outcome .ok 0 (some ((c + 1).setWidth 128))) := by
  obtain ⟨hi, hrun, hv, hc, hk⟩ := hr
  obtain rfl | rfl := hi
  · have hlast : x >>> 7 = 0#128 := (shiftRight_seven_eq_zero_iff x).2 hl
    rw [groupByte] at hk
    simp only [exec, execEncU, hrun, hv, hc, writeRequest, hk, encodeUnsignedAccepted, if_pos hlast]
    rfl
  · have hlast : signedLast x = true := (signedLast_eq x).trans (decide_eq_true hl)
    rw [groupByte] at hk
    simp only [exec, execEncS, hrun, hv, hc, writeRequest, hk, encodeSignedAccepted, if_pos hlast]
    rfl

/-- `DONE` after a group of command `i` that is not the last: only `ENC_S` has it (R73). -/
def doneAfter : Instr → Option Bool → Option Bool
  | .encS, _ => some false
  | .encU, d => d
  | .decU, d => d
  | .decS, d => d

/-- Any other group leaves the remaining value and counts its byte (R70, R73). -/
theorem EncodeRequest.exec_more {i : Instr} {s : State} {x : Word} {c : BitVec 5} {k : Sink}
    (hr : EncodeRequest i s x c (some .ok) k) (hl : ¬ isLastGroup i x) :
    exec i s = .next { s with
      snk := k, v := some (restValue i x), count := some (c + 1), done := doneAfter i s.done } := by
  obtain ⟨hi, hrun, hv, hc, hk⟩ := hr
  obtain rfl | rfl := hi
  · have hmore : ¬ x >>> 7 = 0#128 := mt (shiftRight_seven_eq_zero_iff x).1 hl
    rw [groupByte] at hk
    simp only [exec, execEncU, hrun, hv, hc, writeRequest, hk, encodeUnsignedAccepted, if_neg hmore]
    rfl
  · have hmore : ¬ signedLast x = true := by
      rw [signedLast_eq, decide_eq_true_eq]
      exact hl
    rw [groupByte] at hk
    simp only [exec, execEncS, hrun, hv, hc, writeRequest, hk, encodeSignedAccepted, if_neg hmore]
    rfl

/-- From any group of an encode on, the turns write the encoding of the remaining value, and `RESULT` counts its bytes and
the `j` before them (R71, R74, R76). -/
theorem turns_encode {i : Instr} {s : State} {x : Word} {j n : Nat} {k : Sink} (hi : i = .encU ∨ i = .encS)
    (hp : s.phase = .run) (ho : s.op = some i.op) (hv : s.v = some x) (hc : s.count = some (BitVec.ofNat 5 j))
    (hn : j + (encodingOf i x).length = n) (hmax : n ≤ 19) (hk : s.snk.acceptAll (encodingOf i x) = some k) :
    Turns (encodingOf i x).length s ({ s with snk := k }.outcome .ok 0 (some (BitVec.ofNat 128 n))) := by
  have hbusy : s.phase ≠ .idle := by simp [hp]
  induction x using encoding_induction hi generalizing s j with
  | last x hl =>
    rw [encodingOf_of_last hl, List.length_singleton] at hn
    rw [encodingOf_of_last hl] at hk ⊢
    obtain ⟨k₁, hwrite, hk⟩ := Sink.acceptAll_cons hk
    cases hk
    have hstep := EncodeRequest.exec_last ⟨hi, hp, hv, hc, hwrite⟩ hl
    have hcount : (BitVec.ofNat 5 j + 1).setWidth 128 = BitVec.ofNat 128 n := by bv_omega
    rw [hcount] at hstep
    exact .of_exec hbusy ho hstep (.refl _)
  | more x hl ih =>
    rw [encodingOf_of_not_last hi hl, List.length_cons] at hn
    rw [encodingOf_of_not_last hi hl] at hk ⊢
    obtain ⟨k₁, hwrite, hk⟩ := Sink.acceptAll_cons hk
    have hstep := EncodeRequest.exec_more ⟨hi, hp, hv, hc, hwrite⟩ hl
    have hcount : BitVec.ofNat 5 j + 1 = BitVec.ofNat 5 (j + 1) := by bv_omega
    rw [hcount] at hstep
    exact .of_exec hbusy ho hstep (ih hp ho rfl rfl (by omega) hk hbusy)

theorem encodingOf_length_le {i : Instr} (hi : i = .encU ∨ i = .encS) (x : Word) : (encodingOf i x).length ≤ 19 := by
  obtain rfl | rfl := hi
  · obtain ⟨-, -, -, -, hle, -⟩ := unsignedEncodingIsMinimal x
    exact hle
  · obtain ⟨-, -, -, hle, -⟩ := signedEncodingIsMinimal x
    exact hle

/-! ### The pseudo-instructions that encode -/

/-- A host that writes `VALUE`, starts an encode and waits, on a sink that accepts the bytes (R70, R73, R118); the last poll
reads `OK` of command `i` (R18). -/
theorem reaches_of_encode_wait {i : Instr} {s : State} {x : Word} {k : Sink} {rest : List Move}
    (hi : i = .encU ∨ i = .encS) (hp : s.phase = .idle)
    (ha : s.agenda = .writeValue x :: .writeCmd (encode i) :: .wait :: rest)
    (hk : s.snk.acceptAll (encodingOf i x) = some k) :
    Reaches (3 + (encodingOf i x).length) s { s.endedAs i .ok 0 (some (BitVec.ofNat 128 (encodingOf i x).length)) with
      snk := k, value := some x, agenda := rest,
      readData := some (.status (0#1 ++ i.op ++ 0#2 ++ Code.ok.bits ++ 0#1)) } := by
  have hwrite : step s = .next _ := step_of_cons ha
  have hstart : exec i { s with value := some x, agenda := .wait :: rest } = .next _ :=
    (exec_of_idle_of_encode hi (by exact hp)).trans (startEncode_of_value rfl)
  have hturns := turns_encode (s := { State.startCommand i { s with value := some x, agenda := .wait :: rest } with
    v := some x, count := some 0 }) hi rfl rfl rfl rfl (Nat.zero_add _) (encodingOf_length_le hi x) hk
  rw [Nat.add_comm]
  have hrun := reaches_of_start_wait (s := { s with value := some x, agenda := .writeCmd (encode i) :: .wait :: rest })
    hp rfl hstart hturns rfl
  exact (reaches_succ hwrite).2 hrun

/-- Settles O48: each line expands to a write of the literal's pattern, its command word and a `wait`. -/
theorem encodePseudoInstructionRuns : Obligations.EncodePseudoInstructionRuns := by
  constructor
  · intro s x k rest hp _ ha hk
    rw [expand_encU] at ha
    exact reaches_of_encode_wait (.inl rfl) hp ha hk
  · intro s x k rest hp _ ha hk
    rw [expand_encS] at ha
    exact reaches_of_encode_wait (.inr rfl) hp ha hk

end Sys2Proof.Machine

/-! # Whole decodes (41_decoders.md sections 2 to 4): O50 -/

namespace Sys2Proof.Machine

/-! ### The value of a decode -/

/-- The value an encoding denotes to a decode command (R49, R52); an encode command reads none. -/
def denotedValue : Instr → List Byte → Int
  | .decU, e => unsignedValue e
  | .decS, e => signedValue e
  | .encU, _ => 0
  | .encS, _ => 0

theorem decodedWord_eq_ofInt (i : Instr) (e : List Byte) : decodedWord i e = BitVec.ofInt 128 (denotedValue i e) := by
  cases i with
  | decU => exact (BitVec.ofInt_natCast 128 _).symm
  | decS => rfl
  | encU => rfl
  | encS => rfl

theorem denotedValue_cons {i : Instr} {b : Byte} {e : List Byte} (hi : i = .decU ∨ i = .decS) (he : e ≠ []) :
    denotedValue i (b :: e) = (b.toNat % 128 : Nat) + 128 * denotedValue i e := by
  obtain rfl | rfl := hi
  · simp [denotedValue, unsignedValue]
  · exact signedValue_cons he

/-- The value a decode command ends with on a terminal byte (R82, R87). -/
def terminalWord : Instr → Word → Byte → BitVec 8 → Word
  | .decU, a, b, sh => placeGroup a b sh
  | .decS, a, b, sh => signExtendFrom (placeGroup a b sh) b (sh + 7)
  | .encU, a, _, _ => a
  | .encS, a, _, _ => a

/-- A group lands above what the accumulator holds (R80). -/
theorem placeGroup_eq {n j : Nat} {b : Byte} (hn : n < 2 ^ (7 * j)) (hj : j ≤ 18) :
    placeGroup (BitVec.ofNat 128 n) b (BitVec.ofNat 8 (7 * j)) = BitVec.ofNat 128 (n + 2 ^ (7 * j) * (b.toNat % 128)) := by
  have hshift : (BitVec.ofNat 8 (7 * j)).toNat = 7 * j := by simp; omega
  apply BitVec.eq_of_toNat_eq
  rw [placeGroup, BitVec.toNat_or, BitVec.toNat_shiftLeft, byteGroup_toNat, hshift, BitVec.toNat_ofNat, BitVec.toNat_ofNat,
    Nat.shiftLeft_eq, ← Nat.or_mod_two_pow, Nat.add_comm, Nat.two_pow_add_eq_or_of_lt hn, Nat.or_comm, Nat.mul_comm]

theorem placed_lt {n j g : Nat} (hn : n < 2 ^ (7 * j)) (hg : g < 128) : n + 2 ^ (7 * j) * g < 2 ^ (7 * (j + 1)) := by
  rw [Nat.mul_succ, pow_add]
  have := Nat.mul_le_mul_left (2 ^ (7 * j)) (Nat.le_of_lt_succ hg)
  omega

/-- Setting the bits from `SHIFT` upward takes 2^SHIFT from a value below it, in two's complement (R88). -/
theorem setBitsFrom_eq {m : Nat} {sh : BitVec 8} (hs : sh.toNat < 128) (hm : m < 2 ^ sh.toNat) :
    setBitsFrom (BitVec.ofNat 128 m) sh = BitVec.ofInt 128 (m - (2 ^ sh.toNat : Nat)) := by
  have hpos : 0 < 2 ^ sh.toNat := by positivity
  have hlt : 2 ^ sh.toNat < 2 ^ 128 := Nat.pow_lt_pow_right (by decide) hs
  have hpow : 2 ^ sh.toNat * 2 ^ (128 - sh.toNat) = 2 ^ 128 := by rw [← pow_add, Nat.add_sub_cancel' hs.le]
  have hones : (BitVec.allOnes 128 <<< sh.toNat).toNat = 2 ^ sh.toNat * (2 ^ (128 - sh.toNat) - 1) := by
    rw [BitVec.toNat_shiftLeft, BitVec.toNat_allOnes, Nat.shiftLeft_eq, Nat.mul_sub_one, hpow]
    omega
  apply BitVec.eq_of_toNat_eq
  rw [setBitsFrom, BitVec.toNat_or, hones, BitVec.toNat_ofNat, Nat.mod_eq_of_lt (hm.trans hlt), Nat.or_comm,
    ← Nat.two_pow_add_eq_or_of_lt hm, BitVec.toNat_ofInt, Nat.mul_sub_one, hpow]
  omega

theorem shift_toNat {j : Nat} (hj : j ≤ 18) : (BitVec.ofNat 8 (7 * j)).toNat = 7 * j := by
  rw [BitVec.toNat_ofNat, Nat.mod_eq_of_lt (by omega)]

/-- The sign extension gives the last group its signed value; at shift 126 it is not made, and what it would set lies above
bit 127 (R88). -/
theorem signExtendFrom_placeGroup_eq {n j : Nat} {b : Byte} (hn : n < 2 ^ (7 * j)) (hj : j ≤ 18) :
    signExtendFrom (placeGroup (BitVec.ofNat 128 n) b (BitVec.ofNat 8 (7 * j))) b (BitVec.ofNat 8 (7 * j) + 7) =
      BitVec.ofInt 128 (n + (2 ^ (7 * j) : Nat) * signedGroup b) := by
  have hshift := shift_add_seven_toNat (shift_toNat hj) hj
  have hlt := placed_lt hn (Nat.mod_lt b.toNat (show 128 > 0 by decide))
  rw [placeGroup_eq hn hj, signExtendFrom, signedGroup, hshift]
  cases hsign : signBit b
  · rw [Bool.and_false, if_neg (by simp), if_neg (by simp), ← BitVec.ofInt_natCast]
    push_cast
    ring_nf
  · rw [Bool.and_true, if_pos rfl]
    by_cases hj17 : 7 * (j + 1) < 128
    · rw [if_pos (by simpa using hj17), setBitsFrom_eq (by omega) (by rwa [hshift]), hshift, Nat.mul_succ, pow_add]
      push_cast
      ring_nf
    · obtain rfl : j = 18 := by omega
      rw [if_neg (by simp)]
      apply BitVec.eq_of_toNat_eq
      rw [BitVec.toNat_ofNat, BitVec.toNat_ofInt]
      omega

/-- What a terminal byte gives: the value of the groups before it and, at its shift, of its own (R81, R88). -/
theorem terminalWord_eq {i : Instr} {n j : Nat} {b : Byte} (hi : i = .decU ∨ i = .decS) (hn : n < 2 ^ (7 * j))
    (hj : j ≤ 18) :
    terminalWord i (BitVec.ofNat 128 n) b (BitVec.ofNat 8 (7 * j)) =
      BitVec.ofInt 128 (n + (2 ^ (7 * j) : Nat) * denotedValue i [b]) := by
  obtain rfl | rfl := hi
  · rw [terminalWord, placeGroup_eq hn hj, ← BitVec.ofInt_natCast]
    simp [denotedValue, unsignedValue]
  · rw [terminalWord, signExtendFrom_placeGroup_eq hn hj, denotedValue, signedValue_singleton]

/-! ### The turns of a decode -/

/-- A source supplies a list of bytes by supplying the first and then the others. -/
theorem Source.supplyAll_cons {q q' : Source} {b : Byte} {bs : List Byte} (h : q.supplyAll (b :: bs) = some q') :
    ∃ q₁, q.read = (some (.byte b), q₁) ∧ q₁.supplyAll bs = some q' := by
  rw [Source.supplyAll] at h
  split at h
  · rename_i c q₁ hread
    split at h
    · rename_i hc
      exact ⟨q₁, hc ▸ hread, h⟩
    · cases h
  · cases h

/-- The first byte of an encoding is its terminal byte, or has bit 7 set and an encoding after it (R48). -/
theorem isEncoding_cases {b : Byte} {e : List Byte} (h : isEncoding (b :: e) = true) :
    (e = [] ∧ contBit b = false) ∨ (contBit b = true ∧ isEncoding e = true) := by
  by_cases he : e = []
  · subst he
    exact .inl ⟨rfl, by simpa using h⟩
  · exact .inr (by simpa [isEncoding_cons he] using h)

/-- A byte supplied in `RUN` (R82, R87). -/
theorem DecodeRequest.exec_run {i : Instr} {s : State} {a : Word} {sh : BitVec 8} {b : Byte} {q : Source}
    (hr : DecodeRequest i s (some (.byte b)) q) (hp : s.phase = .run) (ha : s.acc = some a) (hs : s.shift = some sh) :
    exec i s = .next
      (if guardFails (permitOf i s.config.boundarySet) sh b then State.drainOn b { s with src := q, b := some b }
      else if contBit b then { s with src := q, b := some b, acc := some (placeGroup a b sh), shift := some (sh + 7) }
      else { s with src := q }.outcome .ok 0 (some (terminalWord i a b sh))) := by
  obtain ⟨hi, -, hread⟩ := hr
  obtain rfl | rfl := hi
  · simp only [exec, execDecU, hp, ha, hs, readRequest, hread]
    rfl
  · simp only [exec, execDecS, hp, ha, hs, readRequest, hread]
    rfl

/-- A byte supplied in `DRAIN` (R86). -/
theorem DecodeRequest.exec_drain {i : Instr} {s : State} {last b : Byte} {q : Source}
    (hr : DecodeRequest i s (some (.byte b)) q) (hp : s.phase = .drain) (hb : s.b = some last)
    (hl : contBit last = true) : exec i s = .next (State.drainOn b { s with src := q, b := some b }) := by
  obtain ⟨hi, -, hread⟩ := hr
  have hdrain : exec i s = drainRequest s := by
    obtain rfl | rfl := hi
    · simp only [exec, execDecU, hp]
    · simp only [exec, execDecS, hp]
  rw [hdrain]
  simp only [drainRequest, hb, hl, if_true, readRequest, hread]

/-- From the byte that fails the guard on, the turns drain the encoding to its terminal byte (R86, R90). -/
theorem turns_drainOn {i : Instr} {s : State} {b : Byte} {e : List Byte} {q : Source} (hi : i = .decU ∨ i = .decS)
    (ho : s.op = some i.op) (hb : s.b = some b) (he : isEncoding (b :: e) = true) (hq : s.src.supplyAll e = some q) :
    Turns e.length (s.drainOn b) ({ s with src := q }.outcome .overflow 0 none) := by
  induction e generalizing s b with
  | nil =>
    obtain ⟨-, hterm⟩ | ⟨-, hnil⟩ := isEncoding_cases he
    · cases hq
      rw [State.drainOn, if_neg (by simp [hterm])]
      exact .refl _
    · cases hnil
  | cons c e ih =>
    obtain ⟨hnil, -⟩ | ⟨hcont, he⟩ := isEncoding_cases he
    · cases hnil
    · obtain ⟨q₁, hread, hq⟩ := Source.supplyAll_cons hq
      rw [State.drainOn, if_pos hcont]
      have hstep := DecodeRequest.exec_drain (i := i) (s := { s with phase := .drain })
        ⟨hi, .inr ⟨rfl, b, hb, hcont⟩, hread⟩ rfl hb hcont
      exact .of_exec nofun ho hstep (ih (s := { s with phase := .drain, src := q₁, b := some c }) ho rfl he hq)

theorem guardFails_of_mem {permit : List Byte} {sh : BitVec 8} {b : Byte} (h : sh = Config.boundary → b ∈ permit) :
    guardFails permit sh b = false := by
  simpa [guardFails] using h

theorem shift_eq_boundary_iff {j : Nat} (hj : j ≤ 18) : BitVec.ofNat 8 (7 * j) = Config.boundary ↔ j = 18 := by
  rw [← BitVec.toNat_inj, shift_toNat hj]
  simp
  omega

theorem shift_succ (j : Nat) : BitVec.ofNat 8 (7 * j) + 7 = BitVec.ofNat 8 (7 * (j + 1)) := by
  rw [Nat.mul_succ, BitVec.ofNat_add]
  rfl

/-- From byte `j` of an accepted encoding on, with the value `n` of the groups before it, the turns end with the whole
value (R81, R88, R90). -/
theorem turns_decode_accepted {i : Instr} {s : State} {e : List Byte} {n j : Nat} {q : Source}
    (hi : i = .decU ∨ i = .decS) (hp : s.phase = .run) (ho : s.op = some i.op)
    (ha : s.acc = some (BitVec.ofNat 128 n)) (hs : s.shift = some (BitVec.ofNat 8 (7 * j))) (hn : n < 2 ^ (7 * j))
    (hj : j ≤ 18) (he : isEncoding e = true) (hpermit : ∀ b, e[18 - j]? = some b → b ∈ permitOf i s.config.boundarySet)
    (hq : s.src.supplyAll e = some q) :
    Turns e.length s ({ s with src := q }.outcome .ok 0
      (some (BitVec.ofInt 128 (n + (2 ^ (7 * j) : Nat) * denotedValue i e)))) := by
  have hbusy : s.phase ≠ .idle := by simp [hp]
  induction e generalizing s n j with
  | nil => cases he
  | cons b e ih =>
    obtain ⟨q₁, hread, hq⟩ := Source.supplyAll_cons hq
    have hguard : guardFails (permitOf i s.config.boundarySet) (BitVec.ofNat 8 (7 * j)) b = false := by
      refine guardFails_of_mem fun hshift => hpermit b ?_
      rw [(shift_eq_boundary_iff hj).1 hshift]
      rfl
    have hstep := DecodeRequest.exec_run ⟨hi, .inl hp, hread⟩ hp ha hs
    rw [hguard, if_neg (by simp)] at hstep
    obtain ⟨rfl, hterm⟩ | ⟨hcont, he⟩ := isEncoding_cases he
    · cases hq
      rw [hterm, if_neg (by simp), terminalWord_eq hi hn hj] at hstep
      exact .of_exec hbusy ho hstep (.refl _)
    · have hj17 : j ≠ 18 := mt (shift_eq_boundary_iff hj).2 (shift_ne_boundary hguard hcont)
      rw [if_pos hcont, placeGroup_eq hn hj, shift_succ] at hstep
      have hvalue : (n : Int) + (2 ^ (7 * j) : Nat) * denotedValue i (b :: e) =
          (n + 2 ^ (7 * j) * (b.toNat % 128) : Nat) + (2 ^ (7 * (j + 1)) : Nat) * denotedValue i e := by
        rw [denotedValue_cons hi (isEncoding_ne_nil he), Nat.mul_succ, pow_add]
        push_cast
        ring
      rw [hvalue]
      refine .of_exec hbusy ho hstep
        (ih hp ho rfl rfl (placed_lt hn (Nat.mod_lt _ (by decide))) (by omega) he (fun c hc => hpermit c ?_) hq hbusy)
      rw [show 18 - j = 18 - (j + 1) + 1 by omega, List.getElem?_cons_succ]
      exact hc

/-- From byte `j` of an overflowing encoding on, the turns run to the 19th byte and drain the rest (R84, R86, R90). -/
theorem turns_decode_overflow {i : Instr} {s : State} {a : Word} {e : List Byte} {j : Nat} {c : Byte} {q : Source}
    (hi : i = .decU ∨ i = .decS) (hp : s.phase = .run) (ho : s.op = some i.op) (ha : s.acc = some a)
    (hs : s.shift = some (BitVec.ofNat 8 (7 * j))) (hj : j ≤ 18) (he : isEncoding e = true) (hc : e[18 - j]? = some c)
    (hpermit : c ∉ permitOf i s.config.boundarySet) (hq : s.src.supplyAll e = some q) :
    Turns e.length s ({ s with src := q }.outcome .overflow 0 none) := by
  have hbusy : s.phase ≠ .idle := by simp [hp]
  induction e generalizing s a j with
  | nil => cases he
  | cons b e ih =>
    obtain ⟨q₁, hread, hq⟩ := Source.supplyAll_cons hq
    have hstep := DecodeRequest.exec_run ⟨hi, .inl hp, hread⟩ hp ha hs
    by_cases hlast : j = 18
    · subst hlast
      obtain rfl : b = c := by simpa using hc
      have hguard : guardFails (permitOf i s.config.boundarySet) (BitVec.ofNat 8 (7 * 18)) b = true := by
        simp [guardFails, hpermit]
      rw [if_pos hguard] at hstep
      exact .of_exec hbusy ho hstep (turns_drainOn (s := { s with src := q₁, b := some b }) hi ho rfl he hq)
    · rw [show 18 - j = 18 - (j + 1) + 1 by omega, List.getElem?_cons_succ] at hc
      obtain ⟨rfl, -⟩ | ⟨hcont, he⟩ := isEncoding_cases he
      · cases hc
      · have hguard : guardFails (permitOf i s.config.boundarySet) (BitVec.ofNat 8 (7 * j)) b = false :=
          guardFails_of_mem fun hshift => absurd ((shift_eq_boundary_iff hj).1 hshift) hlast
        rw [hguard, if_neg (by simp), if_pos hcont, shift_succ] at hstep
        exact .of_exec hbusy ho hstep (ih hp ho rfl rfl (by omega) he hc hpermit hq hbusy)

/-! ### The pseudo-instructions that decode -/

/-- A decoder accepts an encoding whose 19th byte, if any, is permitted (R61). -/
theorem accepted_iff {permit e : List Byte} :
    accepted permit e = true ↔ isEncoding e = true ∧ ∀ b, e[18]? = some b → b ∈ permit := by
  cases h : e[18]? <;> simp [accepted, h]

/-- It overflows on an encoding with a 19th byte that is not permitted (R61). -/
theorem overflows_iff {permit e : List Byte} :
    overflows permit e = true ↔ isEncoding e = true ∧ ∃ b, e[18]? = some b ∧ b ∉ permit := by
  cases h : e[18]? <;> simp [overflows, h]

/-- A host that starts a decode and waits sees the state that the decode's turns lead to (R118). -/
theorem reaches_of_decode_wait {n : Nat} {i : Instr} {s t : State} {rest : List Move} (hi : i = .decU ∨ i = .decS)
    (hp : s.phase = .idle) (ha : s.agenda = .writeCmd (encode i) :: .wait :: rest)
    (h : Turns n { State.startCommand i { s with agenda := .wait :: rest } with acc := some 0, shift := some 0 } t)
    (ht : t.phase = .idle) : Reaches (2 + n) s (t.withHost rest (some (.status t.status))) := by
  have hstart : exec i { s with agenda := .wait :: rest } = .next _ := exec_of_idle_of_decode hi (by exact hp)
  rw [Nat.add_comm]
  exact reaches_of_start_wait hp ha hstart h ht

/-- The last poll reads `OK` of command `i` (R18). -/
theorem reaches_of_decode_accepted_wait {i : Instr} {s : State} {e : List Byte} {q : Source} {rest : List Move}
    (hi : i = .decU ∨ i = .decS) (hp : s.phase = .idle) (ha : s.agenda = .writeCmd (encode i) :: .wait :: rest)
    (hq : s.src.supplyAll e = some q) (he : accepted (permitOf i s.config.boundarySet) e = true) :
    Reaches (2 + e.length) s { s.endedAs i .ok 0 (some (decodedWord i e)) with
      src := q, agenda := rest, readData := some (.status (0#1 ++ i.op ++ 0#2 ++ Code.ok.bits ++ 0#1)) } := by
  obtain ⟨he, hpermit⟩ := accepted_iff.1 he
  have hturns := turns_decode_accepted (n := 0) (j := 0)
    (s := { State.startCommand i { s with agenda := .wait :: rest } with acc := some 0, shift := some 0 })
    hi rfl rfl rfl rfl (by decide) (by decide) he hpermit hq
  have hvalue : BitVec.ofInt 128 ((0 : Nat) + (2 ^ (7 * 0) : Nat) * denotedValue i e) = decodedWord i e := by
    simp [decodedWord_eq_ofInt]
  rw [hvalue] at hturns
  exact reaches_of_decode_wait hi hp ha hturns rfl

/-- The last poll reads `OVERFLOW` of command `i` (R18). -/
theorem reaches_of_decode_overflow_wait {i : Instr} {s : State} {e : List Byte} {q : Source} {rest : List Move}
    (hi : i = .decU ∨ i = .decS) (hp : s.phase = .idle) (ha : s.agenda = .writeCmd (encode i) :: .wait :: rest)
    (hq : s.src.supplyAll e = some q) (he : overflows (permitOf i s.config.boundarySet) e = true) :
    Reaches (2 + e.length) s { s.endedAs i .overflow 0 none with
      src := q, agenda := rest, readData := some (.status (0#1 ++ i.op ++ 0#2 ++ Code.overflow.bits ++ 0#1)) } := by
  obtain ⟨he, b, hb, hpermit⟩ := overflows_iff.1 he
  have hturns := turns_decode_overflow (j := 0)
    (s := { State.startCommand i { s with agenda := .wait :: rest } with acc := some 0, shift := some 0 })
    hi rfl rfl rfl rfl (by decide) he hb hpermit hq
  exact reaches_of_decode_wait hi hp ha hturns rfl

/-- Settles O50: each line expands to its command word and a `wait`, and the decode ends by the encoding it reads. -/
theorem decodePseudoInstructionRuns : Obligations.DecodePseudoInstructionRuns := by
  rintro s line i okStatus overflowStatus e q rest (⟨rfl, rfl, rfl, rfl⟩ | ⟨rfl, rfl, rfl, rfl⟩) hp ha hq
  · rw [expand_decU] at ha
    exact ⟨reaches_of_decode_accepted_wait (.inl rfl) hp ha hq, reaches_of_decode_overflow_wait (.inl rfl) hp ha hq⟩
  · rw [expand_decS] at ha
    exact ⟨reaches_of_decode_accepted_wait (.inr rfl) hp ha hq, reaches_of_decode_overflow_wait (.inr rfl) hp ha hq⟩

end Sys2Proof.Machine

/-! # Encodes started alone (40_encoders.md sections 2 and 3): O10, O11, O37, O38, O39 and O40 -/

namespace Sys2Proof.Machine

/-! ### One request of an encode -/

/-- A request's step is a write request of the byte offered; only what follows an accepted byte is the command's own
(R70, R73). -/
theorem EncodeRequest.exec_eq_writeRequest {i : Instr} {s : State} {x : Word} {c : BitVec 5} {a : Option WriteAnswer}
    {k : Sink} (hr : EncodeRequest i s x c a k) : ∃ accepted, exec i s = writeRequest (groupByte i x) accepted s := by
  obtain ⟨hi, hrun, hv, hc, -⟩ := hr
  obtain rfl | rfl := hi
  · exact ⟨encodeUnsignedAccepted x c, by simp only [exec, execEncU, hrun, hv, hc, groupByte]⟩
  · exact ⟨encodeSignedAccepted x c, by simp only [exec, execEncS, hrun, hv, hc, groupByte]⟩

/-- A request the sink does not answer leaves every register as it is (R112). -/
theorem EncodeRequest.exec_waits {i : Instr} {s : State} {x : Word} {c : BitVec 5} {k : Sink}
    (hr : EncodeRequest i s x c none k) : exec i s = .next { s with snk := k } := by
  obtain ⟨accepted, hexec⟩ := hr.exec_eq_writeRequest
  simp only [hexec, writeRequest, hr.answer]

/-- A request the sink fails ends the command with the sink's kind (R72, R75). -/
theorem EncodeRequest.exec_fails {i : Instr} {s : State} {x : Word} {c : BitVec 5} {f : SinkFail} {k : Sink}
    (hr : EncodeRequest i s x c (some (.fail f)) k) :
    exec i s = .next ({ s with snk := k }.outcome .ioError (sinkKind f) none) := by
  obtain ⟨accepted, hexec⟩ := hr.exec_eq_writeRequest
  simp only [hexec, writeRequest, hr.answer, State.raiseIoError_eq_outcome]

theorem ushiftRight_seven_eq_ofNat (x : Word) : x >>> 7 = BitVec.ofNat 128 (x.toNat / 128) := by
  rw [← ushiftRight_seven_toNat, BitVec.ofNat_toNat, BitVec.setWidth_eq]

/-- Settles O10: the byte is the one `ENC_U` offers for the remaining value, so each clause is a request with its answer. -/
theorem encodeUnsignedRequest : Obligations.EncodeUnsignedRequest := by
  intro s x c byte hp hv hc hbyte
  obtain rfl : byte = groupByte .encU x := hbyte.trans (unsignedByte_eq x).symm
  have request {a k} (hk : s.snk.write (groupByte .encU x) = (a, k)) : EncodeRequest .encU s x c a k :=
    ⟨.inl rfl, hp, hv, hc, hk⟩
  refine ⟨?waits, ?refuses, ?fails, ?more, ?last⟩
  case waits => exact fun k hk => (request hk).exec_waits
  case refuses => exact fun k hk => (request hk).exec_fails
  case fails => exact fun k hk => (request hk).exec_fails
  case more =>
    intro k hk hx
    rw [← ushiftRight_seven_eq_ofNat]
    exact (request hk).exec_more (Nat.not_lt.2 hx)
  case last => exact fun k hk hx => (request hk).exec_last hx

/-- Settles O11: the byte is the one `ENC_S` offers for the remaining value, so each clause is a request with its answer. -/
theorem encodeSignedRequest : Obligations.EncodeSignedRequest := by
  intro s x c byte hp hv hc hbyte
  obtain rfl : byte = groupByte .encS x := hbyte.trans (signedByte_eq x).symm
  have request {a k} (hk : s.snk.write (groupByte .encS x) = (a, k)) : EncodeRequest .encS s x c a k :=
    ⟨.inr rfl, hp, hv, hc, hk⟩
  refine ⟨?waits, ?refuses, ?fails, ?more, ?last⟩
  case waits => exact fun k hk => (request hk).exec_waits
  case refuses => exact fun k hk => (request hk).exec_fails
  case fails => exact fun k hk => (request hk).exec_fails
  case more =>
    intro k hk hx
    rw [← signedRest_eq x hx]
    exact (request hk).exec_more hx
  case last => exact fun k hk hlo hhi => (request hk).exec_last ⟨hlo, hhi⟩

/-! ### From the `CMD` write on, with nothing after it on the agenda -/

theorem Turns.trans {m n : Nat} {s u t : State} (h : Turns m s u) (h' : Turns n u t) : Turns (m + n) s t := by
  induction h with
  | refl s => rwa [Nat.zero_add]
  | turn hp hturn _ ih =>
    rw [Nat.add_right_comm]
    exact .turn hp hturn (ih h')

/-- With nothing on the agenda, turns of the core are steps of the machine. -/
theorem Turns.reaches {n : Nat} {s t : State} (h : Turns n s t) (ha : s.agenda = []) : Reaches n s t := by
  induction h with
  | refl s => rfl
  | turn hp hturn _ ih =>
    exact (reaches_succ ((step_of_nil ha).trans hturn)).2 (ih ((coreMove_agenda hturn).trans ha))

/-- A command started with nothing after it on the agenda reaches what its start and turns lead to. -/
theorem reaches_of_starting {n : Nat} {i : Instr} {s u t : State} (hs : s.starting i)
    (hstart : exec i { s with agenda := [] } = .next u) (h : Turns n u t) : Reaches (1 + n) s t := by
  obtain ⟨hp, ha⟩ := hs
  have hstep := stepRunsWrittenCommand s _ i _ hp ha (decode_eq_ok_iff.2 rfl)
  obtain ⟨-, -, -, hagenda, -⟩ := (CommandStep.of_exec hstart).keeps_host
  rw [Nat.add_comm]
  exact (reaches_succ (hstep.trans hstart)).2 (h.reaches hagenda)

/-- Encode command `i` on the value `x`, started with nothing after it on the agenda and before its first request (R23). -/
def State.startedEncode (i : Instr) (x : Word) (s : State) : State :=
  { State.startCommand i { s with agenda := [] } with v := some x, count := some 0 }

/-- An encode started by `State.starting` reaches what its turns lead to. -/
theorem reaches_of_starting_encode {n : Nat} {i : Instr} {s t : State} {x : Word} (hi : i = .encU ∨ i = .encS)
    (hs : s.starting i) (hx : s.value = some x) (h : Turns n (s.startedEncode i x) t) : Reaches (1 + n) s t := by
  have hstart : exec i { s with agenda := [] } = .next (s.startedEncode i x) :=
    (exec_of_idle_of_encode hi (by exact hs.1)).trans (startEncode_of_value hx)
  exact reaches_of_starting hs hstart h

/-! ### Whole encodes -/

/-- A sink that accepts bytes holds them after what it held (R37). -/
theorem Sink.held_of_acceptAll {k k' : Sink} {bs : List Byte} (h : k.acceptAll bs = some k') :
    k'.held = k.held ++ bs := by
  induction bs generalizing k with
  | nil => cases h; simp
  | cons b bs ih =>
    obtain ⟨k₁, hwrite, hrest⟩ := Sink.acceptAll_cons h
    rw [ih hrest, Sink.held_of_write hwrite, bytesAccepted, List.append_assoc, List.singleton_append]

/-- An encode on a sink that accepts its bytes, from its `CMD` write to its ending (R71, R74, R76, R124). -/
theorem reaches_of_encode {i : Instr} {s : State} {x : Word} {k : Sink} (hi : i = .encU ∨ i = .encS) (hs : s.starting i)
    (hx : s.value = some x) (hk : s.snk.acceptAll (encodingOf i x) = some k) :
    Reaches (1 + (encodingOf i x).length) s
      { s.endedAs i .ok 0 (some (BitVec.ofNat 128 (encodingOf i x).length)) with snk := k } := by
  have hturns := turns_encode (s := s.startedEncode i x) hi rfl rfl rfl rfl (Nat.zero_add _)
    (encodingOf_length_le hi x) hk
  exact reaches_of_starting_encode hi hs hx hturns

/-- Settles O37: the turns after the start write the encoding of `VALUE`, group by group. -/
theorem encodeUnsignedWritesEncoding : Obligations.EncodeUnsignedWritesEncoding :=
  fun _ _ _ hs hx hk => ⟨reaches_of_encode (.inl rfl) hs hx hk, Sink.held_of_acceptAll hk⟩

/-- Settles O38: the turns after the start write the encoding of `VALUE`, group by group. -/
theorem encodeSignedWritesEncoding : Obligations.EncodeSignedWritesEncoding :=
  fun _ _ _ hs hx hk => ⟨reaches_of_encode (.inr rfl) hs hx hk, Sink.held_of_acceptAll hk⟩

/-! ### Inside the loops -/

/-- The value that remains after `j` groups, none of them the last: shifted right by 7j, logically by `ENC_U` and
arithmetically by `ENC_S` (R71, R74); a decode command has none. -/
def remainingValue : Instr → Word → Nat → Word
  | .encU, x, j => x >>> (7 * j)
  | .encS, x, j => x.sshiftRight (7 * j)
  | .decU, x, _ => x
  | .decS, x, _ => x

@[simp] theorem remainingValue_zero (i : Instr) (x : Word) : remainingValue i x 0 = x := by
  cases i <;> simp [remainingValue]

theorem signedRest_of_not_last {x : Word} (h : ¬ isLastGroup .encS x) : signedRest x = x.sshiftRight 7 := by
  have hmore : ¬ signedLast x = true := by
    rw [signedLast_eq, decide_eq_true_eq]
    exact h
  rw [signedRest, if_neg hmore, ← BitVec.sshiftRight_add]

/-- Shifting by one group and then by `j` is shifting by `j + 1`. -/
theorem remainingValue_restValue {i : Instr} {x : Word} (h : ¬ isLastGroup i x) (j : Nat) :
    remainingValue i (restValue i x) j = remainingValue i x (j + 1) := by
  have hsum : 7 + 7 * j = 7 * (j + 1) := by omega
  cases i with
  | encU => rw [restValue, remainingValue, remainingValue, ← BitVec.shiftRight_add, hsum]
  | encS => rw [restValue, signedRest_of_not_last h, remainingValue, remainingValue, ← BitVec.sshiftRight_add, hsum]
  | decU => rfl
  | decS => rfl

theorem not_last_of_lt_length {i : Instr} {x : Word} {j : Nat} (h : j + 1 < (encodingOf i x).length) :
    ¬ isLastGroup i x := by
  intro hl
  rw [encodingOf_of_last hl, List.length_singleton] at h
  omega

/-- Byte `j` of the encoding is the one offered for the value that remains after `j` groups (R71, R74). -/
theorem encodingOf_getElem {i : Instr} {x : Word} {j : Nat} (hi : i = .encU ∨ i = .encS)
    (h : j < (encodingOf i x).length) : (encodingOf i x)[j] = groupByte i (remainingValue i x j) := by
  induction j generalizing x with
  | zero =>
    by_cases hl : isLastGroup i x
    · simp [encodingOf_of_last hl]
    · simp [encodingOf_of_not_last hi hl]
  | succ j ih =>
    have hl := not_last_of_lt_length h
    simp only [encodingOf_of_not_last hi hl, List.length_cons, Nat.add_lt_add_iff_right, List.getElem_cons_succ] at h ⊢
    rw [ih h, remainingValue_restValue hl]

/-- A state in an encoder's loop with the remaining value, the bytes counted, `DONE` and the sink given. -/
def State.encodeLoop (x : Word) (n : Nat) (d : Option Bool) (k : Sink) (s : State) : State :=
  { s with snk := k, v := some x, count := some (BitVec.ofNat 5 n), done := d }

theorem State.encodeLoop_self {s : State} {x : Word} {n : Nat} (hv : s.v = some x)
    (hc : s.count = some (BitVec.ofNat 5 n)) : s.encodeLoop x n s.done s.snk = s := by
  simp only [State.encodeLoop, ← hv, ← hc]

/-- The turns of the `j` bytes after `n` others, fewer than what is left of the encoding, move the sink, `V`, `COUNT` and
`DONE` only (R71, R74). -/
theorem turns_encode_take {i : Instr} {s : State} {x : Word} {n j : Nat} {k : Sink} (hi : i = .encU ∨ i = .encS)
    (hp : s.phase = .run) (ho : s.op = some i.op) (hv : s.v = some x) (hc : s.count = some (BitVec.ofNat 5 n))
    (hj : j < (encodingOf i x).length) (hk : s.snk.acceptAll ((encodingOf i x).take j) = some k) :
    ∃ d, Turns j s (s.encodeLoop (remainingValue i x j) (n + j) d k) := by
  have hbusy : s.phase ≠ .idle := by simp [hp]
  induction j generalizing s x n with
  | zero =>
    cases hk
    rw [remainingValue_zero, Nat.add_zero]
    refine ⟨s.done, ?_⟩
    rw [State.encodeLoop_self hv hc]
    exact .refl s
  | succ j ih =>
    have hl := not_last_of_lt_length hj
    rw [encodingOf_of_not_last hi hl] at hj hk
    obtain ⟨k₁, hwrite, hk⟩ := Sink.acceptAll_cons hk
    have hstep := EncodeRequest.exec_more ⟨hi, hp, hv, hc, hwrite⟩ hl
    have hcount : BitVec.ofNat 5 n + 1 = BitVec.ofNat 5 (n + 1) := by bv_omega
    rw [hcount] at hstep
    obtain ⟨d, hturns⟩ := ih (s := s.encodeLoop (restValue i x) (n + 1) (doneAfter i s.done) k₁) hp ho rfl rfl
      (Nat.lt_of_succ_lt_succ hj) hk hbusy
    rw [remainingValue_restValue hl, Nat.add_right_comm] at hturns
    exact ⟨d, .of_exec hbusy ho hstep hturns⟩

/-- Settles O39: the start and `j` turns, none of which ends the command. -/
theorem encodeLoopState : Obligations.EncodeLoopState := by
  intro s i x k j hi hs hx hj hk
  obtain ⟨d, hturns⟩ := turns_encode_take (s := s.startedEncode i x) (n := 0) hi rfl rfl rfl rfl hj hk
  rw [Nat.zero_add] at hturns
  refine ⟨_, reaches_of_starting_encode hi hs hx hturns, rfl, rfl, rfl, ?_⟩
  obtain rfl | rfl := hi <;> rfl

/-- Settles O40: after `j` turns the failing byte is the one offered, and its request ends the command. -/
theorem encodeSinkFailure : Obligations.EncodeSinkFailure := by
  intro s i x k k' f j hj hi hs hx hk hfail
  obtain ⟨d, hturns⟩ := turns_encode_take (s := s.startedEncode i x) (n := 0) hi rfl rfl rfl rfl hj hk
  rw [Nat.zero_add] at hturns
  rw [encodingOf_getElem hi hj] at hfail
  have hstep := EncodeRequest.exec_fails
    (s := (s.startedEncode i x).encodeLoop (remainingValue i x j) j d k) ⟨hi, rfl, rfl, rfl, hfail⟩
  have hrun := reaches_of_starting_encode hi hs hx (hturns.trans (.of_exec nofun rfl hstep (.refl _)))
  constructor
  · rw [show 2 + j = 1 + (j + 1) by omega]
    cases f <;> exact hrun
  · rw [Sink.held_of_write hfail, bytesAccepted, List.append_nil, Sink.held_of_acceptAll hk]

end Sys2Proof.Machine

/-! # Decodes started alone (41_decoders.md): O41, O42, O46, O45, O47, O43, O44, O12, O13, O14, O35 and O34 -/

namespace Sys2Proof.Machine

/-! ### Bytes supplied one by one -/

/-- A source that supplies bytes has consumed them after what it had consumed (R36). -/
theorem Source.taken_of_supplyAll {q q' : Source} {bs : List Byte} (h : q.supplyAll bs = some q') :
    q'.taken = q.taken ++ bs := by
  induction bs generalizing q with
  | nil => cases h; simp
  | cons b bs ih =>
    obtain ⟨q₁, hread, hrest⟩ := Source.supplyAll_cons h
    rw [ih hrest, Source.taken_of_read hread, bytesSupplied, List.append_assoc, List.singleton_append]

/-- A source supplies two lists back to back by supplying the first and then the second (R94). -/
theorem Source.supplyAll_append {q q' : Source} {bs cs : List Byte} (h : q.supplyAll (bs ++ cs) = some q') :
    ∃ q₁, q.supplyAll bs = some q₁ ∧ q₁.supplyAll cs = some q' := by
  induction bs generalizing q with
  | nil => exact ⟨q, rfl, h⟩
  | cons b bs ih =>
    obtain ⟨q₀, hread, hrest⟩ := Source.supplyAll_cons h
    obtain ⟨q₁, hbs, hcs⟩ := ih hrest
    refine ⟨q₁, ?_, hcs⟩
    simpa only [Source.supplyAll, hread, if_true] using hbs

/-! ### What an accepted encoding denotes fits `RESULT` -/

theorem unsignedValue_append (e f : List Byte) :
    unsignedValue (e ++ f) = unsignedValue e + 2 ^ (7 * e.length) * unsignedValue f := by
  induction e with
  | nil => simp [unsignedValue]
  | cons b e ih =>
    rw [List.cons_append, unsignedValue, unsignedValue, ih, List.length_cons, Nat.mul_succ, pow_add]
    ring

/-- Dropping bytes before the terminal one leaves an encoding (R48). -/
theorem isEncoding_drop {e : List Byte} {n : Nat} (he : isEncoding e = true) (hn : n < e.length) :
    isEncoding (e.drop n) = true := by
  induction n generalizing e with
  | zero => exact he
  | succ n ih =>
    cases e with
    | nil => cases he
    | cons b e =>
      obtain ⟨rfl, -⟩ | ⟨-, he⟩ := isEncoding_cases he
      · exact absurd hn (by simp)
      · exact ih he (Nat.lt_of_succ_lt_succ hn)

/-- A permitted byte of `DEC_U` is a group of at most 2 bits (R85). -/
theorem toNat_lt_four_of_mem_permitU {p : BoundarySet} {b : Byte} (h : b ∈ permitU p) : b.toNat < 4 := by
  have all : ∀ b ∈ permitU p, b.toNat < 4 := by cases p <;> decide
  exact all b h

/-- A 19th byte that is permitted ends the encoding (R85), and adds 2 bits to the 126 of the groups before it (R83). -/
theorem unsignedValue_lt_of_accepted {p : BoundarySet} {e : List Byte} (h : accepted (permitU p) e = true) :
    unsignedValue e < 2 ^ 128 := by
  obtain ⟨he, hpermit⟩ := accepted_iff.1 h
  by_cases hlen : 18 < e.length
  · have hmem := hpermit e[18] (List.getElem?_eq_getElem hlen)
    have hdrop := List.drop_eq_getElem_cons hlen
    obtain ⟨hnil, -⟩ | ⟨hcont, -⟩ := isEncoding_cases (hdrop ▸ isEncoding_drop he hlen)
    · have hlow := unsignedValue_lt (e.take 18)
      have htop := toNat_lt_four_of_mem_permitU hmem
      rw [hnil] at hdrop
      rw [← List.take_append_drop 18 e, hdrop, unsignedValue_append, unsignedValue, unsignedValue]
      rw [List.length_take, Nat.min_eq_left hlen.le] at hlow ⊢
      omega
    · simp [contBit_of_mem_permitOf (i := .decU) hmem] at hcont
  · exact (unsignedValue_lt e).trans (Nat.pow_lt_pow_right (by decide) (by omega))

/-! ### Whole decodes -/

/-- Decode command `i` started with nothing after it on the agenda, before its first request (R23). -/
def State.startedDecode (i : Instr) (s : State) : State :=
  { State.startCommand i { s with agenda := [] } with acc := some 0, shift := some 0 }

/-- A decode started by `State.starting` reaches what its turns lead to. -/
theorem reaches_of_starting_decode {n : Nat} {i : Instr} {s t : State} (hi : i = .decU ∨ i = .decS)
    (hs : s.starting i) (h : Turns n (s.startedDecode i) t) : Reaches (1 + n) s t := by
  have hstart : exec i { s with agenda := [] } = .next (s.startedDecode i) := exec_of_idle_of_decode hi (by exact hs.1)
  exact reaches_of_starting hs hstart h

/-- A decode of an accepted encoding, from its `CMD` write to its ending (R81, R88, R90, R124). -/
theorem reaches_of_decode_accepted {i : Instr} {s : State} {e : List Byte} {q : Source} (hi : i = .decU ∨ i = .decS)
    (hs : s.starting i) (he : accepted (permitOf i s.config.boundarySet) e = true) (hq : s.src.supplyAll e = some q) :
    Reaches (1 + e.length) s { s.endedAs i .ok 0 (some (decodedWord i e)) with src := q } := by
  obtain ⟨he, hpermit⟩ := accepted_iff.1 he
  have hturns := turns_decode_accepted (s := s.startedDecode i) (n := 0) (j := 0) hi rfl rfl rfl rfl (by decide)
    (by decide) he hpermit hq
  have hvalue : BitVec.ofInt 128 ((0 : Nat) + (2 ^ (7 * 0) : Nat) * denotedValue i e) = decodedWord i e := by
    simp [decodedWord_eq_ofInt]
  rw [hvalue] at hturns
  exact reaches_of_starting_decode hi hs hturns

/-- A decode of an overflowing encoding, from its `CMD` write to its ending (R84, R86, R90, R103). -/
theorem reaches_of_decode_overflow {i : Instr} {s : State} {e : List Byte} {q : Source} (hi : i = .decU ∨ i = .decS)
    (hs : s.starting i) (he : overflows (permitOf i s.config.boundarySet) e = true) (hq : s.src.supplyAll e = some q) :
    Reaches (1 + e.length) s { s.endedAs i .overflow 0 none with src := q } := by
  obtain ⟨he, b, hb, hpermit⟩ := overflows_iff.1 he
  have hturns := turns_decode_overflow (s := s.startedDecode i) (j := 0) hi rfl rfl rfl rfl (by decide) he hb hpermit hq
  exact reaches_of_starting_decode hi hs hturns

/-- Settles O41: the turns after the start place the encoding's groups, and a permitted 19th byte keeps the value below
2^128. -/
theorem decodeReturnsValue : Obligations.DecodeReturnsValue := by
  intro s i e q hi hs he hq
  refine ⟨reaches_of_decode_accepted hi hs he hq, Source.taken_of_supplyAll hq, ?_⟩
  rintro rfl
  exact unsignedValue_lt_of_accepted he

/-- Settles O42: the turns after the start run to the 19th byte and drain what follows it. -/
theorem decodeOverflowDrains : Obligations.DecodeOverflowDrains :=
  fun _ _ _ _ hi hs he hq => ⟨reaches_of_decode_overflow hi hs he hq, Source.taken_of_supplyAll hq⟩

/-- No encoding is both accepted and overflowing: its 19th byte decides (R61). -/
theorem not_accepted_and_overflows {permit e : List Byte} (ha : accepted permit e = true)
    (ho : overflows permit e = true) : False := by
  obtain ⟨-, hpermit⟩ := accepted_iff.1 ha
  obtain ⟨-, b, hb, hnot⟩ := overflows_iff.1 ho
  exact hnot (hpermit b hb)

/-- Settles O46: the first decode, however it ends, leaves the source at the second encoding, and a decode's ending keeps
nothing else of the command before it. -/
theorem backToBackDecodes : Obligations.BackToBackDecodes := by
  intro s i j e₁ e₂ q hi hj hs he₁ he₂ hq
  obtain ⟨q₁, hq₁, hq₂⟩ := Source.supplyAll_append hq
  have htaken₁ := Source.taken_of_supplyAll hq₁
  have htaken : q.taken = s.src.taken ++ e₁ ++ e₂ := by rw [Source.taken_of_supplyAll hq₂, htaken₁]
  have second (code result) := reaches_of_decode_accepted (q := q) (e := e₂) hj
    (s := { s.endedAs i code 0 result with src := q₁, agenda := [.writeCmd (encode j)] }) ⟨rfl, rfl⟩ he₂ hq₂
  obtain hacc | hover := he₁
  · exact ⟨_, reaches_of_decode_accepted hi hs hacc hq₁, htaken₁, fun _ => ⟨rfl, rfl⟩,
      fun hover => (not_accepted_and_overflows hacc hover).elim, second .ok (some (decodedWord i e₁)), htaken⟩
  · exact ⟨_, reaches_of_decode_overflow hi hs hover hq₁, htaken₁,
      fun hacc => (not_accepted_and_overflows hacc hover).elim, fun _ => ⟨rfl, rfl⟩, second .overflow none, htaken⟩

/-! ### The 19th byte of a minimal encoding -/

/-- The 19th byte of an encoding, if there is one, is the one offered for the value that remains after 18 groups
(R71, R74). -/
theorem encodingOf_nineteenth {i : Instr} (hi : i = .encU ∨ i = .encS) (x : Word) :
    (encodingOf i x)[18]? =
      if 18 < (encodingOf i x).length then some (groupByte i (remainingValue i x 18)) else none := by
  split
  · rw [List.getElem?_eq_getElem ‹_›, encodingOf_getElem hi]
  · exact List.getElem?_eq_none (by omega)

/-- `ENC_U` writes a 19th byte from 2^126 on: the top 2 bits of the value (R56, R95). -/
theorem unsignedEncoding_nineteenth (x : Word) :
    (unsignedEncoding x)[18]? = if 2 ^ 126 ≤ x.toNat then some (BitVec.ofNat 8 (x.toNat / 2 ^ 126)) else none := by
  have hx := x.isLt
  have hlen : 18 < unsignedLength x ↔ 2 ^ 126 ≤ x.toNat := by
    have hle := unsignedLength_le_iff x (n := 18) (by decide)
    omega
  have hbyte : groupByte .encU (remainingValue .encU x 18) = BitVec.ofNat 8 (x.toNat / 2 ^ 126) := by
    have htop : (x >>> (7 * 18)).toNat = x.toNat / 2 ^ 126 := by
      rw [BitVec.toNat_ushiftRight, Nat.shiftRight_eq_div_pow]
    rw [groupByte, remainingValue, unsignedByte_eq, htop, if_neg (by omega), Nat.mod_eq_of_lt (by omega), Nat.add_zero]
  rw [← hbyte, ← encodingOf, encodingOf_nineteenth (.inl rfl) x, encodingOf, unsignedEncoding_length]
  simp only [hlen]

/-- `ENC_S` writes a 19th byte below −2^125 and from 2^125 on: the group of the value's top 2 bits, sign-extended
(R56, R95). -/
theorem signedEncoding_nineteenth (x : Word) :
    (signedEncoding x)[18]? = if x.toInt < -(2 ^ 125) ∨ 2 ^ 125 ≤ x.toInt then
      some (BitVec.ofNat 8 (x.toInt / 2 ^ 126 % 128).toNat) else none := by
  have hi := BitVec.toInt_lt (x := x)
  have lo := BitVec.le_toInt (x := x)
  have hlen : 18 < signedLength x ↔ x.toInt < -(2 ^ 125) ∨ 2 ^ 125 ≤ x.toInt := by
    have hle := signedLength_le_iff x (n := 18) (by decide)
    rw [fitsSigned_iff] at hle
    omega
  have hbyte : groupByte .encS (remainingValue .encS x 18) = BitVec.ofNat 8 (x.toInt / 2 ^ 126 % 128).toNat := by
    have htop : (x.sshiftRight (7 * 18)).toInt = x.toInt / 2 ^ 126 := by
      rw [BitVec.toInt_sshiftRight, Int.shiftRight_eq_div_pow]
      rfl
    rw [groupByte, remainingValue, signedByte_eq, htop, if_pos (by omega), Nat.add_zero]
  rw [← hbyte, ← encodingOf, encodingOf_nineteenth (.inr rfl) x, encodingOf, signedEncoding_length]
  simp only [hlen]

/-- An encoding whose 19th byte, if it has one, is permitted is accepted (R61). -/
theorem accepted_of_nineteenth {permit e : List Byte} {c : Prop} [Decidable c] {b : Byte} (he : isEncoding e = true)
    (h : e[18]? = if c then some b else none) (hb : c → b ∈ permit) : accepted permit e = true := by
  refine accepted_iff.2 ⟨he, fun b' hb' => ?_⟩
  rw [h] at hb'
  split at hb'
  · cases hb'
    exact hb ‹_›
  · cases hb'

theorem overflows_of_nineteenth {permit e : List Byte} {b : Byte} (he : isEncoding e = true) (h : e[18]? = some b)
    (hb : b ∉ permit) : overflows permit e = true :=
  overflows_iff.2 ⟨he, b, h, hb⟩

/-! ### Round trips -/

/-- What the encoder wrote denotes its value to the decoder that matches it (R50, R53, R93). -/
theorem decodedWord_unsignedEncoding (x : Word) : decodedWord .decU (unsignedEncoding x) = x := by
  rw [decodedWord, unsignedValue_unsignedEncoding, BitVec.ofNat_toNat, BitVec.setWidth_eq]

theorem decodedWord_signedEncoding (x : Word) : decodedWord .decS (signedEncoding x) = x := by
  rw [decodedWord, signedValue_signedEncoding, BitVec.ofInt_toInt]

/-- `DERIVED` permits the top 2 bits of every unsigned value (R85). -/
theorem accepted_unsignedEncoding_derived (x : Word) : accepted (permitU .derived) (unsignedEncoding x) = true := by
  have hx := x.isLt
  refine accepted_of_nineteenth (isEncoding_encodingOf (.inl rfl) x) (unsignedEncoding_nineteenth x) fun _ => ?_
  have htop : x.toNat / 2 ^ 126 < 4 := by omega
  interval_cases x.toNat / 2 ^ 126 <;> decide

/-- `DERIVED` permits the top 2 bits of every signed value, sign-extended (R85). -/
theorem accepted_signedEncoding_derived (x : Word) : accepted (permitS .derived) (signedEncoding x) = true := by
  have hi := BitVec.toInt_lt (x := x)
  have lo := BitVec.le_toInt (x := x)
  refine accepted_of_nineteenth (isEncoding_encodingOf (.inr rfl) x) (signedEncoding_nineteenth x) fun _ => ?_
  have hlo : -2 ≤ x.toInt / 2 ^ 126 := by omega
  have hhi : x.toInt / 2 ^ 126 < 2 := by omega
  interval_cases x.toInt / 2 ^ 126 <;> decide

/-- Settles O45: the sink's new bytes are the encoding of the value, which `DERIVED` accepts whatever the value is. -/
theorem roundTripDerived : Obligations.RoundTripDerived := by
  intro s d enc dec x k q n t hpair hs hx hk hn ht hd hset hq
  have henc : enc = .encU ∨ enc = .encS := hpair.imp And.left And.left
  have hdec : dec = .decU ∨ dec = .decS := hpair.imp And.right And.right
  have hrun := reaches_of_encode henc hs hx hk
  obtain rfl : _ = t := Host.Outcome.next.inj (hrun.symm.trans (hn ▸ ht))
  have hheld : k.held.drop s.snk.held.length = encodingOf enc x := by
    rw [Sink.held_of_acceptAll hk, List.drop_left]
  have haccepted : accepted (permitOf dec d.config.boundarySet) (encodingOf enc x) = true ∧
      decodedWord dec (encodingOf enc x) = x := by
    rw [hset]
    obtain ⟨rfl, rfl⟩ | ⟨rfl, rfl⟩ := hpair
    · exact ⟨accepted_unsignedEncoding_derived x, decodedWord_unsignedEncoding x⟩
    · exact ⟨accepted_signedEncoding_derived x, decodedWord_signedEncoding x⟩
  obtain ⟨haccepted, hvalue⟩ := haccepted
  simp only [hheld] at hq ⊢
  have hdecode := reaches_of_decode_accepted hdec hd haccepted hq
  rw [hvalue, ← hn] at hdecode
  exact ⟨hdecode, Source.taken_of_supplyAll hq⟩

/-- `LITERAL` permits the top 2 bits of an unsigned value below 2^127 (R95). -/
theorem accepted_unsignedEncoding_literal {x : Word} (h : x.toNat < 2 ^ 127) :
    accepted (permitU .literal) (unsignedEncoding x) = true := by
  refine accepted_of_nineteenth (isEncoding_encodingOf (.inl rfl) x) (unsignedEncoding_nineteenth x) fun hx => ?_
  have htop : x.toNat / 2 ^ 126 = 1 := by omega
  rw [htop]
  decide

/-- `LITERAL` permits the top 2 bits of a signed value of 127 bits, sign-extended (R95). -/
theorem accepted_signedEncoding_literal {x : Word} (lo : -(2 ^ 126) ≤ x.toInt) (hi : x.toInt < 2 ^ 126) :
    accepted (permitS .literal) (signedEncoding x) = true := by
  refine accepted_of_nineteenth (isEncoding_encodingOf (.inr rfl) x) (signedEncoding_nineteenth x) fun _ => ?_
  obtain htop | htop : x.toInt / 2 ^ 126 = 0 ∨ x.toInt / 2 ^ 126 = -1 := by omega
  · rw [htop]; decide
  · rw [htop]; decide

/-- From 2^127 on the 19th byte of `ENC_U` is 0x02 or 0x03 (R95). -/
theorem unsignedEncoding_nineteenth_of_le {x : Word} (h : 2 ^ 127 ≤ x.toNat) :
    (unsignedEncoding x)[18]? = some 0x02 ∨ (unsignedEncoding x)[18]? = some 0x03 := by
  have hx := x.isLt
  rw [unsignedEncoding_nineteenth, if_pos (by omega)]
  obtain htop | htop : x.toNat / 2 ^ 126 = 2 ∨ x.toNat / 2 ^ 126 = 3 := by omega
  · rw [htop]; exact .inl rfl
  · rw [htop]; exact .inr rfl

/-- From 2^126 on the 19th byte of `ENC_S` is 0x01 (R95). -/
theorem signedEncoding_nineteenth_of_le {x : Word} (h : 2 ^ 126 ≤ x.toInt) : (signedEncoding x)[18]? = some 0x01 := by
  have hi := BitVec.toInt_lt (x := x)
  have htop : x.toInt / 2 ^ 126 = 1 := by omega
  rw [signedEncoding_nineteenth, if_pos (by omega), htop]
  rfl

/-- Below −2^126 it is 0x7E (R95). -/
theorem signedEncoding_nineteenth_of_lt {x : Word} (h : x.toInt ≤ -(2 ^ 126) - 1) :
    (signedEncoding x)[18]? = some 0x7E := by
  have lo := BitVec.le_toInt (x := x)
  have htop : x.toInt / 2 ^ 126 = -2 := by omega
  rw [signedEncoding_nineteenth, if_pos (by omega), htop]
  rfl

/-- Settles O47: the 19th byte decides, and `LITERAL` permits it exactly below the bounds. -/
theorem roundTripLiteral : Obligations.RoundTripLiteral := by
  intro s x q hset
  have hU : isEncoding (unsignedEncoding x) = true := isEncoding_encodingOf (.inl rfl) x
  have hS : isEncoding (signedEncoding x) = true := isEncoding_encodingOf (.inr rfl) x
  refine ⟨fun hs hq => ⟨fun h => ?unsignedOver, fun h => ?unsignedFits⟩,
    fun hs hq => ⟨signedEncoding_nineteenth_of_le, signedEncoding_nineteenth_of_lt, fun h => ?signedOver,
      fun lo hi => ?signedFits⟩⟩
  case unsignedOver =>
    have hbyte := unsignedEncoding_nineteenth_of_le h
    refine ⟨hbyte, reaches_of_decode_overflow (.inl rfl) hs ?_ hq⟩
    rw [hset]
    obtain hbyte | hbyte := hbyte
    · exact overflows_of_nineteenth hU hbyte (by decide)
    · exact overflows_of_nineteenth hU hbyte (by decide)
  case unsignedFits =>
    have hrun := reaches_of_decode_accepted (.inl rfl) hs (hset ▸ accepted_unsignedEncoding_literal h) hq
    rwa [decodedWord_unsignedEncoding] at hrun
  case signedOver =>
    refine reaches_of_decode_overflow (.inr rfl) hs ?_ hq
    rw [hset]
    obtain h | h := h
    · exact overflows_of_nineteenth hS (signedEncoding_nineteenth_of_le h) (by decide)
    · exact overflows_of_nineteenth hS (signedEncoding_nineteenth_of_lt h) (by decide)
  case signedFits =>
    have hrun := reaches_of_decode_accepted (.inr rfl) hs (hset ▸ accepted_signedEncoding_literal lo hi) hq
    rwa [decodedWord_signedEncoding] at hrun

/-! ### One request of a decode -/

/-- A request's step is a read request; only what follows a supplied byte is the phase's and the command's own
(R82, R86, R87). -/
theorem DecodeRequest.exec_eq_readRequest {i : Instr} {s : State} {r : Option ReadAnswer} {q : Source}
    (hr : DecodeRequest i s r q) (hrun : s.phase = .run → ∃ a sh, s.acc = some a ∧ s.shift = some sh) :
    ∃ supplied, exec i s = readRequest supplied s := by
  obtain ⟨hi, hp | ⟨hp, last, hb, hl⟩, -⟩ := hr
  · obtain ⟨a, sh, ha, hs⟩ := hrun hp
    obtain rfl | rfl := hi
    · exact ⟨decodeUnsignedSupplied a sh, by simp only [exec, execDecU, hp, ha, hs]⟩
    · exact ⟨decodeSignedSupplied a sh, by simp only [exec, execDecS, hp, ha, hs]⟩
  · refine ⟨State.drainOn, ?_⟩
    obtain rfl | rfl := hi
    · simp only [exec, execDecU, hp, drainRequest, hb, hl, if_true]
    · simp only [exec, execDecS, hp, drainRequest, hb, hl, if_true]

/-- A request the source does not answer leaves every register as it is (R112). -/
theorem DecodeRequest.exec_waits {i : Instr} {s : State} {q : Source} (hr : DecodeRequest i s none q)
    (hrun : s.phase = .run → ∃ a sh, s.acc = some a ∧ s.shift = some sh) : exec i s = .next { s with src := q } := by
  obtain ⟨supplied, hexec⟩ := hr.exec_eq_readRequest hrun
  simp only [hexec, readRequest, hr.answer]

/-- A request the source fails ends the command with the source's kind (R91, R99). -/
theorem DecodeRequest.exec_fails {i : Instr} {s : State} {f : SourceFail} {q : Source}
    (hr : DecodeRequest i s (some (.fail f)) q)
    (hrun : s.phase = .run → ∃ a sh, s.acc = some a ∧ s.shift = some sh) :
    exec i s = .next ({ s with src := q }.outcome .ioError (sourceKind f) none) := by
  obtain ⟨supplied, hexec⟩ := hr.exec_eq_readRequest hrun
  simp only [hexec, readRequest, hr.answer, State.raiseIoError_eq_outcome]

theorem guardFails_iff {permit : List Byte} {sh : BitVec 8} {b : Byte} :
    guardFails permit sh b = true ↔ sh = Config.boundary ∧ b ∉ permit := by
  simp [guardFails]

/-- A terminal byte ends the drain with `OVERFLOW`, another one goes on in `DRAIN` (R86). -/
theorem State.drainOn_of_lt {s : State} {b : Byte} (h : b.toNat < 128) : s.drainOn b = s.outcome .overflow 0 none := by
  rw [State.drainOn, (contBit_eq_false_iff b).2 h]
  rfl

theorem State.drainOn_of_le {s : State} {b : Byte} (h : 128 ≤ b.toNat) : s.drainOn b = { s with phase := .drain } := by
  rw [State.drainOn, if_pos ((contBit_eq_true_iff b).2 h)]

/-- A byte that fails the guard (R84). -/
theorem DecodeRequest.exec_guarded {i : Instr} {s : State} {a : Word} {sh : BitVec 8} {b : Byte} {q : Source}
    (hr : DecodeRequest i s (some (.byte b)) q) (hp : s.phase = .run) (ha : s.acc = some a) (hs : s.shift = some sh)
    (hg : sh = Config.boundary ∧ b ∉ permitOf i s.config.boundarySet) :
    exec i s = .next (State.drainOn b { s with src := q, b := some b }) := by
  rw [hr.exec_run hp ha hs, if_pos (guardFails_iff.2 hg)]

/-- The terminal byte of a value (R82, R87). -/
theorem DecodeRequest.exec_terminal {i : Instr} {s : State} {a : Word} {sh : BitVec 8} {b : Byte} {q : Source}
    (hr : DecodeRequest i s (some (.byte b)) q) (hp : s.phase = .run) (ha : s.acc = some a) (hs : s.shift = some sh)
    (hg : ¬ (sh = Config.boundary ∧ b ∉ permitOf i s.config.boundarySet)) (hb : b.toNat < 128) :
    exec i s = .next ({ s with src := q }.outcome .ok 0 (some (terminalWord i a b sh))) := by
  rw [hr.exec_run hp ha hs, if_neg (mt guardFails_iff.1 hg), (contBit_eq_false_iff b).2 hb]
  rfl

/-- A byte with more groups after it (R80, R82, R87). -/
theorem DecodeRequest.exec_group {i : Instr} {s : State} {a : Word} {sh : BitVec 8} {b : Byte} {q : Source}
    (hr : DecodeRequest i s (some (.byte b)) q) (hp : s.phase = .run) (ha : s.acc = some a) (hs : s.shift = some sh)
    (hg : ¬ (sh = Config.boundary ∧ b ∉ permitOf i s.config.boundarySet)) (hb : 128 ≤ b.toNat) :
    exec i s = .next { s with
      src := q, b := some b, acc := some (placeGroup a b sh), shift := some (sh + 7) } := by
  rw [hr.exec_run hp ha hs, if_neg (mt guardFails_iff.1 hg), if_pos ((contBit_eq_true_iff b).2 hb)]

/-! ### Groups and the sign extension in arithmetic -/

/-- A group of value `g` stands at `SHIFT` (R80). -/
theorem placeGroup_eq_or {a : Word} {b : Byte} {sh : BitVec 8} {g : Nat} (hg : b.toNat % 128 = g) :
    placeGroup a b sh = a ||| BitVec.ofNat 128 (g * 2 ^ sh.toNat) := by
  have hgroup : byteGroup b <<< sh.toNat = BitVec.ofNat 128 (g * 2 ^ sh.toNat) := by
    apply BitVec.eq_of_toNat_eq
    rw [BitVec.toNat_shiftLeft, byteGroup_toNat, hg, Nat.shiftLeft_eq, BitVec.toNat_ofNat]
  rw [placeGroup, hgroup]

/-- The sign extension of a terminal byte (R88). -/
theorem signExtendFrom_eq_or {a : Word} {b : Byte} {sh : BitVec 8} (hb : b.toNat < 128) :
    signExtendFrom a b sh =
      a ||| (if sh.toNat < 128 ∧ 64 ≤ b.toNat then BitVec.allOnes 128 <<< sh.toNat else 0) := by
  have hsign : (decide (sh.toNat < 128) && signBit b) = true ↔ sh.toNat < 128 ∧ 64 ≤ b.toNat := by
    rw [Bool.and_eq_true, decide_eq_true_eq, signBit_eq_true_iff, Nat.mod_eq_of_lt hb]
  rw [signExtendFrom]
  simp only [hsign, setBitsFrom]
  split
  · rfl
  · exact BitVec.or_zero.symm

/-- One request of a decode in `RUN`, by the source's answer; a supplied byte is sorted by the guard and then by bit 7 (R98).
`d` is what the command makes of a terminal byte. -/
theorem decodeRequest_by_answer {i : Instr} {s : State} {a : Word} {sh : BitVec 8} {q : Source} {d : Byte → Word}
    (hi : i = .decU ∨ i = .decS) (hp : s.phase = .run) (ha : s.acc = some a) (hs : s.shift = some sh)
    (hd : ∀ b : Byte, b.toNat < 128 → terminalWord i a b sh = d b) :
    (s.src.read = (none, q) → exec i s = .next { s with src := q }) ∧
    (s.src.read = (some (.fail .eof), q) → exec i s = .next { s.outcome .ioError 0 none with src := q }) ∧
    (s.src.read = (some (.fail .other), q) → exec i s = .next { s.outcome .ioError 2 none with src := q }) ∧
    (∀ b, s.src.read = (some (.byte b), q) →
      (sh = 126 ∧ b ∉ permitOf i s.config.boundarySet →
        (b.toNat < 128 → exec i s = .next { s.outcome .overflow 0 none with src := q }) ∧
        (128 ≤ b.toNat → exec i s = .next { s with src := q, b := some b, phase := .drain })) ∧
      (¬ (sh = 126 ∧ b ∉ permitOf i s.config.boundarySet) →
        (b.toNat < 128 → exec i s = .next { s.outcome .ok 0 (some (d b)) with src := q }) ∧
        (128 ≤ b.toNat → exec i s = .next { s with
          src := q, b := some b, acc := some (a ||| BitVec.ofNat 128 ((b.toNat - 128) * 2 ^ sh.toNat)),
          shift := some (sh + 7) }))) := by
  have hrun : s.phase = .run → ∃ a sh, s.acc = some a ∧ s.shift = some sh := fun _ => ⟨a, sh, ha, hs⟩
  have request {r} (hq : s.src.read = (r, q)) : DecodeRequest i s r q := ⟨hi, .inl hp, hq⟩
  refine ⟨?waits, ?eof, ?other, fun b hq => ⟨fun hg => ?guarded, fun hg => ⟨fun hb => ?terminal, fun hb => ?group⟩⟩⟩
  case waits => exact fun hq => (request hq).exec_waits hrun
  case eof => exact fun hq => (request hq).exec_fails hrun
  case other => exact fun hq => (request hq).exec_fails hrun
  case guarded =>
    rw [(request hq).exec_guarded hp ha hs hg]
    exact ⟨fun hb => congrArg _ (State.drainOn_of_lt hb), fun hb => congrArg _ (State.drainOn_of_le hb)⟩
  case terminal =>
    rw [(request hq).exec_terminal hp ha hs hg hb, hd b hb]
    rfl
  case group => rw [(request hq).exec_group hp ha hs hg hb, placeGroup_eq_or (g := b.toNat - 128) (by omega)]

/-- Settles O12: a terminal byte of `DEC_U` places its group. -/
theorem decodeUnsignedRequest : Obligations.DecodeUnsignedRequest :=
  fun _ _ _ _ hp ha hs =>
    decodeRequest_by_answer (.inl rfl) hp ha hs fun _ hb => placeGroup_eq_or (Nat.mod_eq_of_lt hb)

/-- Settles O13: a terminal byte of `DEC_S` places its group and extends the sign. -/
theorem decodeSignedRequest : Obligations.DecodeSignedRequest :=
  fun _ _ _ _ hp ha hs => decodeRequest_by_answer (.inr rfl) hp ha hs fun _ hb => by
    rw [terminalWord, placeGroup_eq_or (Nat.mod_eq_of_lt hb), signExtendFrom_eq_or hb]

/-- Settles O14: each clause is a request in `DRAIN` with its answer.
The model's own `drainRequest` has the obligation's name. -/
theorem drainRequestByAnswer : Obligations.DrainRequest := by
  intro s i last q hi hp hb hl
  have hcont := (contBit_eq_true_iff last).2 hl
  have hrun : s.phase = .run → ∃ a sh, s.acc = some a ∧ s.shift = some sh := by simp [hp]
  have request {r} (hq : s.src.read = (r, q)) : DecodeRequest i s r q := ⟨hi, .inr ⟨hp, last, hb, hcont⟩, hq⟩
  refine ⟨fun hq => (request hq).exec_waits hrun, fun hq => (request hq).exec_fails hrun,
    fun hq => (request hq).exec_fails hrun, fun b hq hc => ?drained, fun b hq hc => ?terminal⟩
  case drained =>
    rw [(request hq).exec_drain hp hb hcont, State.drainOn_of_le hc, ← hp]
  case terminal =>
    rw [(request hq).exec_drain hp hb hcont, State.drainOn_of_lt hc]
    rfl

/-! ### Bytes with bit 7 set -/

/-- A decode that has read `n` bytes with bit 7 set, with the accumulator, the last byte and the source given: in `RUN` up to
the 18th, in `DRAIN` from the 19th on, with `SHIFT` at 126 there (R79, R84). -/
def State.decodeLoop (n : Nat) (a : Word) (b : Option Byte) (q : Source) (s : State) : State :=
  { s with
    phase := if n ≤ 18 then .run else .drain, shift := some (BitVec.ofNat 8 (7 * min n 18)), acc := some a, b := b,
    src := q }

/-- The last byte of such a decode, if it has read one, has bit 7 set. -/
def lastContinues (n : Nat) (b : Option Byte) : Prop := 0 < n → ∃ last, b = some last ∧ contBit last = true

section
variable {i : Instr} {s : State} {n : Nat} {a : Word} {b : Option Byte} {q : Source}

theorem State.decodeLoop_run (h : n ≤ 18) : (s.decodeLoop n a b q).phase = .run := if_pos h

theorem State.decodeLoop_drain (h : 18 < n) : (s.decodeLoop n a b q).phase = .drain := if_neg (Nat.not_le.2 h)

theorem State.decodeLoop_busy : (s.decodeLoop n a b q).phase ≠ .idle := by
  by_cases h : n ≤ 18
  · simp [State.decodeLoop_run h]
  · simp [State.decodeLoop_drain (Nat.lt_of_not_le h)]

/-- A running decode asks the source for its next byte, in `RUN` or in `DRAIN`. -/
theorem decodeRequest_of_decodeLoop (hi : i = .decU ∨ i = .decS) (hb : lastContinues n b) {r : Option ReadAnswer}
    {q' : Source} (hq : q.read = (r, q')) : DecodeRequest i (s.decodeLoop n a b q) r q' := by
  refine ⟨hi, ?_, hq⟩
  by_cases h : n ≤ 18
  · exact .inl (State.decodeLoop_run h)
  · exact .inr ⟨State.decodeLoop_drain (Nat.lt_of_not_le h), hb (by omega)⟩

/-- One more byte with bit 7 set: a group below shift 126, the start of the drain at it, or a byte of the drain
(R80, R84, R86). -/
theorem exec_decodeLoop (hi : i = .decU ∨ i = .decS) (hb : lastContinues n b) {c : Byte} {q' : Source}
    (hq : q.read = (some (.byte c), q')) (hc : contBit c = true) :
    ∃ a', exec i (s.decodeLoop n a b q) = .next (s.decodeLoop (n + 1) a' (some c) q') := by
  have hr : DecodeRequest i (s.decodeLoop n a b q) _ q' := decodeRequest_of_decodeLoop hi hb hq
  have hle := (contBit_eq_true_iff c).1 hc
  obtain h | rfl | h := Nat.lt_trichotomy n 18
  · have hshift : BitVec.ofNat 8 (7 * min n 18) ≠ Config.boundary := by
      rw [Nat.min_eq_left h.le]
      exact mt (shift_eq_boundary_iff h.le).1 h.ne
    have hstep := hr.exec_group (State.decodeLoop_run h.le) rfl rfl (fun hg => hshift hg.1) hle
    refine ⟨placeGroup a c (BitVec.ofNat 8 (7 * min n 18)), hstep.trans ?_⟩
    rw [Nat.min_eq_left h.le, shift_succ]
    have hsucc : n + 1 ≤ 18 := h
    simp only [State.decodeLoop, if_pos h.le, if_pos hsucc, Nat.min_eq_left hsucc]
  · have hnot : c ∉ permitOf i s.config.boundarySet := fun hmem => by simp [contBit_of_mem_permitOf hmem] at hc
    refine ⟨a, (hr.exec_guarded (State.decodeLoop_run le_rfl) rfl rfl ⟨rfl, hnot⟩).trans ?_⟩
    rw [State.drainOn_of_le hle]
    rfl
  · obtain ⟨last, hlast, hcont⟩ := hb (by omega)
    refine ⟨a, (hr.exec_drain (State.decodeLoop_drain h) hlast hcont).trans ?_⟩
    rw [State.drainOn_of_le hle]
    simp only [State.decodeLoop, if_neg (Nat.not_le.2 (Nat.lt_succ_of_lt h)), Nat.min_eq_right h.le,
      Nat.min_eq_right (Nat.le_succ_of_le h.le)]

/-- The turns over bytes with bit 7 set stay in the decode (R79, R92). -/
theorem turns_decodeLoop (hi : i = .decU ∨ i = .decS) (ho : s.op = some i.op) (hb : lastContinues n b) {p : List Byte}
    {q' : Source} (hp : ∀ c ∈ p, contBit c = true) (hq : q.supplyAll p = some q') :
    ∃ a' b', lastContinues (n + p.length) b' ∧
      Turns p.length (s.decodeLoop n a b q) (s.decodeLoop (n + p.length) a' b' q') := by
  induction p generalizing n a b q with
  | nil =>
    cases hq
    exact ⟨a, b, hb, .refl _⟩
  | cons c p ih =>
    obtain ⟨hc, hp⟩ := List.forall_mem_cons.1 hp
    obtain ⟨q₁, hread, hq⟩ := Source.supplyAll_cons hq
    obtain ⟨a₁, hstep⟩ := exec_decodeLoop (s := s) (a := a) hi hb hread hc
    obtain ⟨a', b', hb', hturns⟩ := ih (n := n + 1) (a := a₁) (b := some c) (fun _ => ⟨c, rfl, hc⟩) hp hq
    rw [List.length_cons, ← Nat.succ_add_eq_add_succ]
    exact ⟨a', b', hb', .of_exec State.decodeLoop_busy ho hstep hturns⟩

end

/-- A decode started by `State.starting` and then supplied with bytes with bit 7 set. -/
theorem turns_continuation {i : Instr} {s : State} {p : List Byte} {q : Source} (hi : i = .decU ∨ i = .decS)
    (hp : ∀ b ∈ p, contBit b = true) (hq : s.src.supplyAll p = some q) :
    ∃ a b, lastContinues p.length b ∧
      Turns p.length (s.startedDecode i) ((s.startedDecode i).decodeLoop p.length a b q) := by
  obtain ⟨a, b, hb, hturns⟩ := turns_decodeLoop (s := s.startedDecode i) (n := 0) (a := 0) (b := none) hi rfl nofun hp hq
  rw [Nat.zero_add] at hb hturns
  exact ⟨a, b, hb, hturns⟩

/-- Settles O43: wherever in the loop or the drain the failure comes, its request ends the command. -/
theorem decodeSourceFailure : Obligations.DecodeSourceFailure := by
  intro s i p q q' f hi hs hp hq hfail
  obtain ⟨a, b, hb, hturns⟩ := turns_continuation hi hp hq
  have hr : DecodeRequest i ((s.startedDecode i).decodeLoop p.length a b q) _ q' := decodeRequest_of_decodeLoop hi hb hfail
  have hstep := hr.exec_fails fun _ => ⟨_, _, rfl, rfl⟩
  have hrun := reaches_of_starting_decode hi hs
    (hturns.trans (.of_exec State.decodeLoop_busy rfl hstep (.refl _)))
  constructor
  · rw [show 2 + p.length = 1 + (p.length + 1) by omega]
    cases f <;> exact hrun
  · rw [Source.taken_of_read hfail, bytesSupplied, List.append_nil, Source.taken_of_supplyAll hq]

/-- Settles O44: the bytes leave the decode in its loop or its drain, and a withheld answer leaves it there. -/
theorem decodeRunsOnContinuationBytes : Obligations.DecodeRunsOnContinuationBytes := by
  intro s i p q hi hs hp hq
  obtain ⟨a, b, hb, hturns⟩ := turns_continuation hi hp hq
  refine ⟨_, reaches_of_starting_decode hi hs hturns, rfl, rfl, fun h => ⟨State.decodeLoop_run h, ?_⟩,
    State.decodeLoop_drain, fun q' hwait => ?_⟩
  · rw [State.decodeLoop, Nat.min_eq_left h]
  · have hr : DecodeRequest i ((s.startedDecode i).decodeLoop p.length a b q) _ q' :=
      decodeRequest_of_decodeLoop hi hb hwait
    have hstep := hr.exec_waits fun _ => ⟨_, _, rfl, rfl⟩
    rw [show 2 + p.length = 1 + (p.length + 1) by omega]
    exact reaches_of_starting_decode hi hs (hturns.trans (.of_exec State.decodeLoop_busy rfl hstep (.refl _)))

/-! ### Where bits land, and which bytes are permitted -/

theorem byteGroup_getLsbD {b : Byte} {n : Nat} (hn : n < 128) :
    (byteGroup b).getLsbD n = (decide (n < 7) && b.getLsbD n) := by
  simp [byteGroup, hn]

/-- A group placed at `SHIFT` lands at bits `SHIFT` to `SHIFT` + 6 (R80). -/
theorem placeGroup_getLsbD {a : Word} {b : Byte} {sh : BitVec 8} {n : Nat} (hn : n < 128) :
    (placeGroup a b sh).getLsbD n =
      (a.getLsbD n || (decide (sh.toNat ≤ n) && decide (n < sh.toNat + 7) && b.getLsbD (n - sh.toNat))) := by
  rw [placeGroup, BitVec.getLsbD_or, BitVec.getLsbD_shiftLeft, byteGroup_getLsbD (by omega)]
  by_cases h : sh.toNat ≤ n
  · simp [hn, h, Nat.not_lt.2 h, Nat.sub_lt_iff_lt_add h, Nat.add_comm]
  · simp [h, Nat.lt_of_not_le h]

/-- The sign extension sets every bit from `SHIFT` upward (R88). -/
theorem setBitsFrom_getLsbD {a : Word} {sh : BitVec 8} {n : Nat} (hn : n < 128) :
    (setBitsFrom a sh).getLsbD n = (a.getLsbD n || decide (sh.toNat ≤ n)) := by
  have hsub : n - sh.toNat < 128 := by omega
  rw [setBitsFrom, BitVec.getLsbD_or, BitVec.getLsbD_shiftLeft, BitVec.getLsbD_allOnes, decide_eq_true hn,
    decide_eq_true hsub, Bool.true_and, Bool.and_true, ← decide_not]
  simp only [Nat.not_lt]

/-- Settles O35: the group's bits and the bits set, the latter only where the sign extension is made. -/
theorem groupAndSignBitsLand : Obligations.GroupAndSignBitsLand := by
  intro a b sh n hn
  refine ⟨placeGroup_getLsbD hn, ?_⟩
  rw [show b.getLsbD 6 = signBit b from rfl, signExtendFrom]
  cases decide (sh.toNat < 128) && signBit b
  · simp
  · rw [if_pos rfl, setBitsFrom_getLsbD hn, Bool.true_and]

/-- Settles O34: over the bytes of each set, and over all bytes. -/
theorem permittedBytesAtBoundary : Obligations.PermittedBytesAtBoundary := by
  refine ⟨fun p b hb => ?_, ?_, ?_, ?_, ?_⟩
  · obtain hb | hb := hb
    · exact contBit_of_mem_permitOf (i := .decU) hb
    · exact contBit_of_mem_permitOf (i := .decS) hb
  · decide
  · decide
  · simp [permitU]
  · simp [permitS]

end Sys2Proof.Machine

/-! # Endings and independence (60_exceptions.md): O22, O31, O17 and O49 -/

namespace Sys2Proof.Machine

/-! ### What a command's step asks of the streams and how it ends -/

/-- A command's step makes at most one request of the source (R10). -/
theorem CommandStep.src_eq {i : Instr} {s t : State} (h : CommandStep s i t) :
    t.src = s.src ∨ t.src = s.src.read.2 := by
  cases h with
  | sourceWaits hr | sourceFails hr | placesGroup hr | terminalByte _ hr | drains hr | overflows hr => exact .inr hr.source
  | startEncode | startDecode | sinkWaits | sinkFails | lastGroup | unsignedGroup | signedGroup | drained => exact .inl rfl

/-- A command's step makes at most one request of the sink (R10). -/
theorem CommandStep.snk_eq {i : Instr} {s t : State} (h : CommandStep s i t) :
    t.snk = s.snk ∨ ∃ b, t.snk = (s.snk.write b).2 := by
  cases h with
  | sinkWaits hr | sinkFails hr | lastGroup hr | unsignedGroup hr | signedGroup hr => exact .inr ⟨_, hr.sink⟩
  | startEncode | startDecode | sourceWaits | sourceFails | placesGroup | terminalByte | drains | overflows | drained =>
    exact .inl rfl

/-- The outcomes a step of command `i` can end in (R96, R97): only a decode overflows (R103). -/
theorem CommandStep.outcome_of_busy {i : Instr} {s t : State} (h : CommandStep s i t) (hp : s.phase ≠ .idle) :
    t.phase ≠ .idle ∨
      (t.code = .ok ∧ t.ioKind = 0 ∧ t.result ≠ none) ∨
      (t.code = .ioError ∧ t.result = none) ∨
      (t.code = .overflow ∧ t.ioKind = 0 ∧ t.result = none ∧ (i = .decU ∨ i = .decS)) := by
  cases h with
  | startEncode _ hidle | startDecode _ hidle => exact absurd hidle hp
  | sinkWaits | unsignedGroup | signedGroup | sourceWaits | placesGroup => exact .inl hp
  | drains => exact .inl nofun
  | lastGroup | terminalByte => exact .inr (.inl ⟨rfl, rfl, nofun⟩)
  | sinkFails | sourceFails => exact .inr (.inr (.inl ⟨rfl, rfl⟩))
  | overflows hr => exact .inr (.inr (.inr ⟨rfl, rfl, rfl, hr.decodes⟩))
  | drained hi => exact .inr (.inr (.inr ⟨rfl, rfl, rfl, hi⟩))

/-- A step that ends the command reports an outcome (R97). -/
theorem CommandStep.code_of_ends {i : Instr} {s t : State} (h : CommandStep s i t) (hp : s.phase ≠ .idle)
    (ht : t.phase = .idle) : t.code ≠ .noOutcome := by
  obtain hbusy | ⟨hcode, -⟩ | ⟨hcode, -⟩ | ⟨hcode, -⟩ := h.outcome_of_busy hp
  · exact absurd ht hbusy
  all_goals simp [hcode]

/-- An encode's step that ends it has its request answered (R113). -/
theorem CommandStep.sink_answers_of_ends {i : Instr} {s t : State} {x : Word} (h : CommandStep s i t)
    (hi : i = .encU ∨ i = .encS) (hp : s.phase ≠ .idle) (ht : t.phase = .idle) (hv : s.v = some x) :
    (s.snk.write (groupByte i x)).1 ≠ none := by
  cases h with
  | startEncode _ hidle | startDecode _ hidle => exact absurd hidle hp
  | sinkWaits | unsignedGroup | signedGroup => exact absurd ht hp
  | sinkFails hr | lastGroup hr =>
    cases hr.v.symm.trans hv
    rw [hr.answer]
    nofun
  | sourceWaits hr | sourceFails hr | placesGroup hr | terminalByte _ hr | drains hr | overflows hr =>
    exact (not_encode_and_decode hi hr.decodes).elim
  | drained hd => exact (not_encode_and_decode hi hd).elim

/-- A decode's step that ends it has its request answered, unless it drains on a terminal byte, where it makes none
(R86, R113). -/
theorem CommandStep.source_answers_of_ends {i : Instr} {s t : State} (h : CommandStep s i t)
    (hi : i = .decU ∨ i = .decS) (hp : s.phase ≠ .idle) (ht : t.phase = .idle) :
    s.src.read.1 ≠ none ∨ (s.phase = .drain ∧ ∃ last, s.b = some last ∧ last.toNat < 128) := by
  cases h with
  | startEncode _ hidle | startDecode _ hidle => exact absurd hidle hp
  | sourceWaits | placesGroup => exact absurd ht hp
  | drains => cases ht
  | sinkWaits hr | sinkFails hr | lastGroup hr | unsignedGroup hr | signedGroup hr =>
    exact (not_encode_and_decode hr.encodes hi).elim
  | sourceFails hr | terminalByte _ hr | overflows hr =>
    left
    rw [hr.answer]
    nofun
  | drained _ hd hb hl => exact .inr ⟨hd, _, hb, (contBit_eq_false_iff _).1 hl⟩

/-! ### Which action a step takes -/

/-- The core has its turn in `s`, and takes it on `u`: on an empty agenda, on an explicit turn, or under a waiting host
(log entries 4 and 12). -/
def TurnOn (s u : State) : Prop :=
  (s.agenda = [] ∧ u = s) ∨
  (∃ rest, s.agenda = .coreStep :: rest ∧ u = { s with agenda := rest }) ∨
  (∃ rest, s.agenda = .wait :: rest ∧ u = { s with readData := some (.status s.status) })

/-- A turn is taken on the core as it stands: only the host's side may differ. -/
theorem TurnOn.eq_withHost {s u : State} (h : TurnOn s u) : ∃ a r, u = s.withHost a r := by
  obtain ⟨-, rfl⟩ | ⟨rest, -, rfl⟩ | ⟨rest, -, rfl⟩ := h <;> exact ⟨_, _, rfl⟩

/-- The action behind a step: the core's turn, a transaction on a register (R15), an action of the environment (R114, R117),
or the last poll of a `wait`. -/
inductive StepAction (s : State) : State → Prop
  | turn {u t} (hu : TurnOn s u) (hturn : coreMove u = .next t) : StepAction s t
  | lastPoll (rest : List Move) (r : Reading) (hp : s.phase = .idle) :
      StepAction s (s.withHost rest (some r))
  | accesses {a : RegAccess} {rest t} (ht : takeMove a.move { s with agenda := rest } = .next t) : StepAction s t
  | connectsSource {q rest} (ha : s.agenda = .connectSource q :: rest) :
      StepAction s { s with agenda := rest, src := q }
  | connectsSink {k rest} (ha : s.agenda = .connectSink k :: rest) : StepAction s { s with agenda := rest, snk := k }
  | resets {moved rest} (ha : s.agenda = .reset moved :: rest) :
      StepAction s (State.resetCore moved { s with agenda := rest })

/-- Every byte is the low byte of a word a transaction may write. -/
theorem exists_setWidth_eq_byte (w : Byte) : ∃ x : Word, x.setWidth 8 = w :=
  ⟨w.setWidth 128, by simp⟩

theorem StepAction.of_step {s t : State} (h : step s = .next t) : StepAction s t := by
  obtain ⟨ha, h⟩ | ⟨m, rest, ha, hmove⟩ := step_next h
  · exact .turn (.inl ⟨ha, rfl⟩) h
  cases m with
  | coreStep => exact .turn (.inr (.inl ⟨rest, ha, rfl⟩)) hmove
  | wait =>
    by_cases hp : s.phase = .idle
    · rw [step_wait_of_idle hp ha] at h
      cases h
      exact .lastPoll rest _ hp
    · exact .turn (.inr (.inr ⟨rest, ha, rfl⟩)) ((step_wait_of_busy hp ha).symm.trans h)
  | writeCmd w =>
    obtain ⟨x, rfl⟩ := exists_setWidth_eq_byte w
    exact .accesses (a := .write .cmd x) hmove
  | writeValue x => exact .accesses (a := .write .value x) hmove
  | writeStatus w =>
    obtain ⟨x, rfl⟩ := exists_setWidth_eq_byte w
    exact .accesses (a := .write .status x) hmove
  | writeResult x => exact .accesses (a := .write .result x) hmove
  | readCmd => exact .accesses (a := .read .cmd) hmove
  | readValue => exact .accesses (a := .read .value) hmove
  | readStatus => exact .accesses (a := .read .status) hmove
  | readResult => exact .accesses (a := .read .result) hmove
  | connectSource q =>
    rw [step_connectSource ha] at h
    split at h <;> cases h
    exact .connectsSource ha
  | connectSink k =>
    rw [step_connectSink ha] at h
    split at h <;> cases h
    exact .connectsSink ha
  | reset moved =>
    cases hmove
    exact .resets ha

/-! ### Only reset ends a command early -/

theorem readOr_phase {f : Fault} {x : Option Word} {reading : Word → Reading} {s t : State}
    (h : readOr f x reading s = .next t) : t.phase = s.phase := by
  cases x <;> cases h
  rfl

/-- A write of `CMD` while a command runs neither starts nor ends one (R120). -/
theorem writeCmd_phase_of_busy {w : Byte} {s t : State} (hp : s.phase ≠ .idle) (h : writeCmd w s = .next t) :
    t.phase = s.phase := by
  unfold writeCmd at h
  split at h
  · cases h; rfl
  · cases h; rfl
  · rw [if_pos ((State.busy_eq_true_iff s).2 hp)] at h
    cases h; rfl

/-- No transaction on a register ends the running command (R112). -/
theorem takeMove_regAccess_phase_of_busy {a : RegAccess} {s t : State} (hp : s.phase ≠ .idle)
    (h : takeMove a.move s = .next t) : t.phase = s.phase := by
  cases a with
  | read r =>
    cases r with
    | cmd | status => cases h; rfl
    | value | result => exact readOr_phase h
  | write r x =>
    cases r with
    | cmd => exact writeCmd_phase_of_busy hp h
    | value | status | result => cases h; rfl

/-- The two high codes of `OP` select the decodes (R58). -/
theorem instrOfOp_of_decode {o : BitVec 2} (ho : o = 0b10 ∨ o = 0b11) : instrOfOp o = .decU ∨ instrOfOp o = .decS := by
  obtain rfl | rfl := ho
  · exact .inl rfl
  · exact .inr rfl

/-- Settles O22, by the action behind the step: besides reset only the core's turn can end the command, and then its pending
request has been answered. -/
theorem onlyResetEndsEarly : Obligations.OnlyResetEndsEarly := by
  intro s t hp hstep ht
  cases StepAction.of_step hstep with
  | resets ha => exact .inl ⟨_, _, ha⟩
  | lastPoll _ _ hidle => exact absurd hidle hp
  | connectsSource | connectsSink => exact absurd ht hp
  | accesses h =>
    have hphase := takeMove_regAccess_phase_of_busy (by exact hp) h
    exact absurd (hphase.symm.trans ht) hp
  | turn hu hturn =>
    obtain ⟨a, r, rfl⟩ := hu.eq_withHost
    obtain ⟨hidle, -⟩ | ⟨-, o, ho, hexec⟩ := coreMove_next hturn
    · exact absurd hidle hp
    have hcmd := CommandStep.of_exec hexec
    refine .inr ⟨hcmd.code_of_ends hp ht, o, _, ho, hexec, hu, ?unsigned, ?signed, ?run, ?drain⟩
    case unsigned =>
      rintro x rfl hv
      exact hcmd.sink_answers_of_ends (.inl rfl) hp ht hv
    case signed =>
      rintro x rfl hv
      exact hcmd.sink_answers_of_ends (.inr rfl) hp ht hv
    case run =>
      intro hdec hrun
      exact (hcmd.source_answers_of_ends (instrOfOp_of_decode hdec) hp ht).resolve_right (by simp [hrun])
    case drain =>
      intro last hdec _ hb hlast
      refine (hcmd.source_answers_of_ends (instrOfOp_of_decode hdec) hp ht).resolve_right ?_
      rintro ⟨-, last', hb', hlt⟩
      cases hb.symm.trans hb'
      omega

/-! ### A running command's turn -/

/-- An encode in `RUN` has the registers its write request needs, so its step answers a next state (R28). -/
theorem State.encodeInv.exec_next {s : State} (h : s.encodeInv) (hp : s.phase = .run) :
    ∃ i t, s.op = some (Instr.op i) ∧ exec i s = .next t := by
  obtain ⟨-, -, -, x, c, hv, hc, -, hop⟩ := h
  obtain ⟨i, hi, ho⟩ : ∃ i : Instr, (i = .encU ∨ i = .encS) ∧ s.op = some i.op := by
    obtain ⟨ho, -⟩ | ⟨ho, -⟩ := hop
    · exact ⟨_, .inl rfl, ho⟩
    · exact ⟨_, .inr rfl, ho⟩
  have hr : EncodeRequest i s x c _ _ := ⟨hi, hp, hv, hc, rfl⟩
  obtain ⟨accepted, hexec⟩ := hr.exec_eq_writeRequest
  obtain ⟨t, ht⟩ := writeRequest_total (groupByte i x) accepted s
  exact ⟨i, t, ho, hexec.trans ht⟩

/-- A decode that asks for a byte, in `RUN` with the registers its loop needs, is answered by its next state (R28). -/
theorem exec_next_of_decode_asks {s : State} (ho : s.op = some Instr.decU.op ∨ s.op = some Instr.decS.op)
    (hasks : s.phase = .run ∨ (s.phase = .drain ∧ ∃ last, s.b = some last ∧ contBit last = true))
    (hrun : s.phase = .run → ∃ a sh, s.acc = some a ∧ s.shift = some sh) :
    ∃ i t, s.op = some (Instr.op i) ∧ exec i s = .next t := by
  obtain ⟨i, hi, ho⟩ : ∃ i : Instr, (i = .decU ∨ i = .decS) ∧ s.op = some i.op := by
    obtain ho | ho := ho
    · exact ⟨_, .inl rfl, ho⟩
    · exact ⟨_, .inr rfl, ho⟩
  have hr : DecodeRequest i s _ _ := ⟨hi, hasks, rfl⟩
  obtain ⟨supplied, hexec⟩ := hr.exec_eq_readRequest hrun
  obtain ⟨t, ht⟩ := readRequest_total supplied s
  exact ⟨i, t, ho, hexec.trans ht⟩

/-- In a busy state that meets the invariant the latched command's step neither faults nor is refused (R96). -/
theorem State.Inv.exec_next {s : State} (h : s.Inv) (hp : s.phase ≠ .idle) :
    ∃ i t, s.op = some (Instr.op i) ∧ exec i s = .next t := by
  cases hphase : s.phase with
  | idle => exact absurd hphase hp
  | run =>
    obtain ⟨-, henc | ⟨ho, -, -, -, a, sh, -, ha, hs, -⟩⟩ := (State.inv_iff_of_run hphase).1 h
    · exact henc.exec_next hphase
    · exact exec_next_of_decode_asks ho (.inl hphase) fun _ => ⟨a, sh, ha, hs⟩
  | drain =>
    obtain ⟨ho, -, -, -, -, -, hlast⟩ := h.drainInv hphase
    exact exec_next_of_decode_asks ho (.inr ⟨hphase, hlast⟩) (by simp [hphase])

/-- Settles O31: the turn is the latched command's step, which ends in one of the command's outcomes if it ends. -/
theorem coreTurnEndsInOneOutcome : Obligations.CoreTurnEndsInOneOutcome := by
  intro s h hp
  obtain ⟨i, t, ho, hexec⟩ := h.exec_next hp
  refine ⟨t, by rw [coreMove_of_busy hp ho, instrOfOp_op, hexec], ?_⟩
  obtain hbusy | hok | hio | ⟨hcode, hkind, hresult, hi⟩ := (CommandStep.of_exec hexec).outcome_of_busy hp
  · exact .inl hbusy
  · exact .inr (.inl hok)
  · exact .inr (.inr (.inl hio))
  · refine .inr (.inr (.inr ⟨hcode, hkind, hresult, ?_⟩))
    obtain rfl | rfl := hi
    · exact .inl ho
    · exact .inr ho

/-! ### No step takes back a byte moved -/

/-- A stream's record grows by at most one byte (R106). -/
def GrowsByAtMostOne (before after : List Byte) : Prop := after = before ∨ ∃ b, after = before ++ [b]

theorem Source.read_grows (q : Source) : GrowsByAtMostOne q.taken q.read.2.taken := by
  obtain ⟨_, h, htaken⟩ | ⟨_, _, h, htaken⟩ | ⟨b, _, h, htaken⟩ := q.read_cases <;> rw [h]
  · exact .inl htaken
  · exact .inl htaken
  · exact .inr ⟨b, htaken⟩

theorem Sink.write_grows (k : Sink) (b : Byte) : GrowsByAtMostOne k.held (k.write b).2.held := by
  obtain ⟨_, h, hheld⟩ | ⟨_, _, h, hheld⟩ | ⟨_, h, hheld⟩ := k.write_cases b <;> rw [h]
  · exact .inl hheld
  · exact .inl hheld
  · exact .inr ⟨b, hheld⟩

/-- From `s` to `t` each stream keeps the bytes it moved and moves at most one more. -/
structure KeepsMovedBytes (s t : State) : Prop where
  source : GrowsByAtMostOne s.src.taken t.src.taken
  sink : GrowsByAtMostOne s.snk.held t.snk.held

theorem keepsMovedBytes_of_streams_eq {s t : State} (hsrc : t.src = s.src) (hsnk : t.snk = s.snk) :
    KeepsMovedBytes s t :=
  ⟨.inl (congrArg _ hsrc), .inl (congrArg _ hsnk)⟩

theorem CommandStep.keepsMovedBytes {i : Instr} {s t : State} (h : CommandStep s i t) : KeepsMovedBytes s t := by
  constructor
  · obtain hsrc | hsrc := h.src_eq <;> rw [hsrc]
    · exact .inl rfl
    · exact s.src.read_grows
  · obtain hsnk | ⟨b, hsnk⟩ := h.snk_eq <;> rw [hsnk]
    · exact .inl rfl
    · exact s.snk.write_grows b

theorem coreMove_keepsMovedBytes {s t : State} (h : coreMove s = .next t) : KeepsMovedBytes s t := by
  obtain ⟨-, rfl⟩ | ⟨-, o, -, hexec⟩ := coreMove_next h
  · exact keepsMovedBytes_of_streams_eq rfl rfl
  · exact (CommandStep.of_exec hexec).keepsMovedBytes

/-- Carrying out the pending request is one request of one stream, or nothing (R116). -/
theorem State.carryOutPending_keepsMovedBytes (s : State) : KeepsMovedBytes s s.carryOutPending := by
  unfold State.carryOutPending
  split
  · exact keepsMovedBytes_of_streams_eq rfl rfl
  iterate 2
    · split
      · exact ⟨.inl rfl, s.snk.write_grows _⟩
      · exact keepsMovedBytes_of_streams_eq rfl rfl
  · exact ⟨s.src.read_grows, .inl rfl⟩
  · exact ⟨s.src.read_grows, .inl rfl⟩
  · exact keepsMovedBytes_of_streams_eq rfl rfl

/-- Reset takes no byte back, whether the pending request was carried out or not (R115, R116). -/
theorem State.resetCore_keepsMovedBytes (moved : Bool) (s : State) : KeepsMovedBytes s (s.resetCore moved) := by
  cases moved with
  | false => exact keepsMovedBytes_of_streams_eq rfl rfl
  | true => exact ⟨s.carryOutPending_keepsMovedBytes.source, s.carryOutPending_keepsMovedBytes.sink⟩

/-- Settles O17, by the action behind the step: a turn and reset make at most one request of each stream, a connected stream
is the one the statement excepts, and no other action reaches the streams. -/
theorem movedBytesStayMoved : Obligations.MovedBytesStayMoved := by
  intro s t hstep
  cases StepAction.of_step hstep with
  | turn hu hturn =>
    obtain ⟨a, r, rfl⟩ := hu.eq_withHost
    obtain ⟨hsource, hsink⟩ := coreMove_keepsMovedBytes hturn
    exact ⟨fun _ => hsource, fun _ => hsink⟩
  | lastPoll => exact ⟨fun _ => .inl rfl, fun _ => .inl rfl⟩
  | @accesses a rest _ h =>
    obtain ⟨-, -, hsrc, hsnk, -⟩ := (takeMove_regAccess a _ []).1 t h
    exact ⟨fun _ => .inl (congrArg _ hsrc), fun _ => .inl (congrArg _ hsnk)⟩
  | connectsSource ha => exact ⟨fun hne => absurd ha (hne _ _), fun _ => .inl rfl⟩
  | connectsSink ha => exact ⟨fun _ => .inl rfl, fun hne => absurd ha (hne _ _)⟩
  | @resets moved rest ha =>
    obtain ⟨hsource, hsink⟩ := State.resetCore_keepsMovedBytes moved { s with agenda := rest }
    exact ⟨fun _ => hsource, fun _ => hsink⟩

/-! ### Independent cores -/

/-- A step of core `n` that answers a system replaces that core by its next state, if there is a core `n`. -/
theorem stepOf_next {n : Nat} {cores cores' : List State} (h : stepOf n cores = .next cores') :
    (cores[n]? = none ∧ cores' = cores) ∨
    (∃ s t, cores[n]? = some s ∧ step s = .next t ∧ cores' = cores.set n t) := by
  unfold stepOf at h
  split at h
  · cases h
    exact .inl ⟨‹_›, rfl⟩
  · split at h <;> cases h
    exact .inr ⟨_, _, ‹_›, ‹_›, rfl⟩

/-- Settles O49: a step replaces at most the core that makes it. -/
theorem coresAreIndependent : Obligations.CoresAreIndependent := by
  intro cores cores' n m h hm
  obtain ⟨hnone, rfl⟩ | ⟨s, t, hs, hstep, rfl⟩ := stepOf_next h
  · exact ⟨rfl, rfl, fun s hs => by simp [hnone] at hs⟩
  · refine ⟨List.getElem?_set_ne hm.symm, List.length_set, fun s' hs' => ?_⟩
    cases hs.symm.trans hs'
    obtain ⟨hn, -⟩ := List.getElem?_eq_some_iff.1 hs
    exact ⟨t, hstep, List.getElem?_set_self hn⟩

end Sys2Proof.Machine

/-! # Reset and the host's hazards (70_reset_and_hazards.md): O7, O20, O26 and O28 -/

namespace Sys2Proof.Machine

/-! ### `START` while a command runs -/

/-- A write of `CMD` with `START` = 1 is refused while a command runs, whatever the other bits (R59, R120). -/
theorem writeCmd_of_busy {s : State} {w : Byte} (hp : s.phase ≠ .idle) (hs : startField w = true) :
    writeCmd w s = .next s.refuse := by
  by_cases hr : reservedField w = 0#5
  · rw [writeCmd, decode_of_reserved_clear hs hr]
    exact if_pos ((State.busy_eq_true_iff s).2 hp)
  · rw [writeCmd, decode_of_reserved_set hs hr]

/-- A run keeps the refusal mark set (R32). -/
theorem refusalMark_of_reaches {n : Nat} {s t : State} (h : Reaches n s t) (hmark : s.refusalMark = true) :
    t.refusalMark = true := by
  induction n generalizing s with
  | zero =>
    cases h
    exact hmark
  | succ n ih =>
    obtain ⟨u, hstep, hrest⟩ := exists_step_of_reaches h
    obtain ⟨hkeeps, -⟩ := refusalMarkNeverCleared s u hstep
    exact ih hrest (hkeeps hmark)

/-- Settles O7: whatever its reserved bits the write only sets the mark, and no later step of a run clears it. -/
theorem startWhileBusyRefused : Obligations.StartWhileBusyRefused := by
  intro s w rest hp ha hs
  have hstep : step s = .next { s with agenda := rest, refusalMark := true } := by
    rw [step_of_cons ha]
    exact writeCmd_of_busy hp hs
  refine ⟨hstep, fun n ⟨t, hreach, hclear⟩ => ?_⟩
  have hmark := refusalMark_of_reaches ((reaches_succ hstep).1 hreach) rfl
  exact Bool.false_ne_true (hclear.symm.trans hmark)

/-! ### A write of `VALUE` while a command runs -/

/-- A state with another value in `VALUE`. -/
abbrev State.withValue (y : Option Word) (s : State) : State := { s with value := y }

theorem drainOn_withValue (b : Byte) (y : Option Word) (s : State) :
    State.drainOn b (s.withValue y) = (s.drainOn b).withValue y := by
  unfold State.drainOn
  split <;> rfl

theorem EncodeRequest.withValue {i : Instr} {s : State} {x : Word} {c : BitVec 5} {a : Option WriteAnswer} {k : Sink}
    (hr : EncodeRequest i s x c a k) (y : Option Word) : EncodeRequest i (s.withValue y) x c a k :=
  ⟨hr.encodes, hr.run, hr.v, hr.count, hr.answer⟩

theorem DecodeRequest.withValue {i : Instr} {s : State} {a : Option ReadAnswer} {q : Source}
    (hr : DecodeRequest i s a q) (y : Option Word) : DecodeRequest i (s.withValue y) a q :=
  ⟨hr.decodes, hr.asks, hr.answer⟩

/-- An encode's request works on `V` and not on `VALUE` (R17). -/
theorem EncodeRequest.exec_withValue {i : Instr} {s t : State} {x : Word} {c : BitVec 5} {a : Option WriteAnswer}
    {k : Sink} (hr : EncodeRequest i s x c a k) (h : exec i s = .next t) (y : Option Word) :
    exec i (s.withValue y) = .next (t.withValue y) := by
  match a with
  | none =>
    cases hr.exec_waits.symm.trans h
    exact (hr.withValue y).exec_waits
  | some (.fail f) =>
    cases hr.exec_fails.symm.trans h
    exact (hr.withValue y).exec_fails
  | some .ok =>
    by_cases hl : isLastGroup i x
    · cases (hr.exec_last hl).symm.trans h
      exact (hr.withValue y).exec_last hl
    · cases (hr.exec_more hl).symm.trans h
      exact (hr.withValue y).exec_more hl

/-- A decode's step in `RUN` that answers a next state had values in `ACC` and `SHIFT` (R28). -/
theorem acc_shift_of_exec_decode {i : Instr} {s t : State} (hi : i = .decU ∨ i = .decS) (hp : s.phase = .run)
    (h : exec i s = .next t) : ∃ a sh, s.acc = some a ∧ s.shift = some sh := by
  obtain rfl | rfl := hi
  · obtain ⟨hidle, -⟩ | ⟨-, a, sh, ha, hs, -⟩ | ⟨hdrain, -⟩ := execDecU_next h
    · simp [hp] at hidle
    · exact ⟨a, sh, ha, hs⟩
    · simp [hp] at hdrain
  · obtain ⟨hidle, -⟩ | ⟨-, a, sh, ha, hs, -⟩ | ⟨hdrain, -⟩ := execDecS_next h
    · simp [hp] at hidle
    · exact ⟨a, sh, ha, hs⟩
    · simp [hp] at hdrain

/-- No decode's request looks at `VALUE` (R17). -/
theorem DecodeRequest.exec_withValue {i : Instr} {s t : State} {r : Option ReadAnswer} {q : Source}
    (hr : DecodeRequest i s r q) (h : exec i s = .next t) (y : Option Word) :
    exec i (s.withValue y) = .next (t.withValue y) := by
  have hrun : s.phase = .run → ∃ a sh, s.acc = some a ∧ s.shift = some sh := fun hp =>
    acc_shift_of_exec_decode hr.decodes hp h
  match r with
  | none =>
    cases (hr.exec_waits hrun).symm.trans h
    exact (hr.withValue y).exec_waits hrun
  | some (.fail f) =>
    cases (hr.exec_fails hrun).symm.trans h
    exact (hr.withValue y).exec_fails hrun
  | some (.byte b) =>
    obtain hp | ⟨hp, last, hb, hl⟩ := hr.asks
    · obtain ⟨a, sh, ha, hs⟩ := hrun hp
      cases (hr.exec_run hp ha hs).symm.trans h
      rw [(hr.withValue y).exec_run hp ha hs]
      congr 1
      split
      · exact drainOn_withValue b y { s with src := q, b := some b }
      · split <;> rfl
    · cases (hr.exec_drain hp hb hl).symm.trans h
      rw [(hr.withValue y).exec_drain hp hb hl]
      exact congrArg _ (drainOn_withValue b y { s with src := q, b := some b })

/-- A drain whose last byte is the terminal one overflows without a request (R86). -/
theorem exec_of_drained {i : Instr} {s : State} {last : Byte} (hi : i = .decU ∨ i = .decS) (hp : s.phase = .drain)
    (hb : s.b = some last) (hl : contBit last = false) : exec i s = .next (s.outcome .overflow 0 none) := by
  have hdrain : drainRequest s = .next (s.outcome .overflow 0 none) := by
    simp [drainRequest, hb, hl, State.raiseOverflow_eq_outcome]
  obtain rfl | rfl := hi
  · simp only [exec, execDecU, hp, hdrain]
  · simp only [exec, execDecS, hp, hdrain]

/-- A running command's step neither reads nor writes `VALUE` (R17, R123). -/
theorem exec_withValue {i : Instr} {s t : State} (hp : s.phase ≠ .idle) (h : exec i s = .next t) (y : Option Word) :
    exec i (s.withValue y) = .next (t.withValue y) := by
  cases CommandStep.of_exec h with
  | startEncode _ hidle | startDecode _ hidle => exact absurd hidle hp
  | sinkWaits hr | sinkFails hr | lastGroup hr | unsignedGroup hr | signedGroup hr => exact hr.exec_withValue h y
  | sourceWaits hr | sourceFails hr | placesGroup hr | terminalByte _ hr | drains hr | overflows hr =>
    exact hr.exec_withValue h y
  | drained hi hdrain hb hl => exact exec_of_drained hi hdrain hb hl

/-- Settles O20: the write changes `VALUE` at any time (O25), and past its start a command works on `V`. -/
theorem valueWriteDuringCommandHarmless : Obligations.ValueWriteDuringCommandHarmless := by
  intro s hp
  refine ⟨fun x rest ha => ?_, fun i y t h => exec_withValue hp h y⟩
  obtain ⟨-, -, -, -, -, -, hwrite⟩ := hostRegisterAccess s rest
  exact hwrite x ha

/-! ### A read of `RESULT` without an `OK` -/

/-- `RESULT` holds a value only between commands, after an `OK` (R21). -/
theorem State.Inv.result_eq_none {s : State} (h : s.Inv) (hno : s.phase ≠ .idle ∨ s.code ≠ .ok) : s.result = none := by
  by_cases hp : s.phase = .idle
  · obtain ⟨-, -, -, -, -, -, hok, -⟩ := (State.inv_iff_of_idle hp).1 h
    have hcode := hno.resolve_left (not_not_intro hp)
    exact not_not.1 (mt hok.2 hcode)
  · obtain ⟨-, -, -, hresult⟩ := h.busyInv hp
    exact hresult

theorem step_readResult_of_no_value {s : State} {rest : List Move} (ha : s.agenda = .readResult :: rest)
    (hresult : s.result = none) : step s = .fault .resultHoldsNoValue := by
  simp [step_of_cons ha, takeMove, readOr, hresult]

/-- Settles O26: outside an `OK` the invariant leaves `RESULT` without a value. -/
theorem resultReadOutsideOkFaults : Obligations.ResultReadOutsideOkFaults :=
  fun _ _ h ha hno => step_readResult_of_no_value ha (h.result_eq_none hno)

/-! ### Reset in the middle of a command -/

/-- The pending request of a running encode offers the byte of its remaining value (R116). -/
theorem State.pendingByte_of_encode {s : State} {i : Instr} {x : Word} (hi : i = .encU ∨ i = .encS)
    (ho : s.op = some i.op) (hv : s.v = some x) : s.pendingByte = some (groupByte i x) := by
  have hop := map_instrOfOp_eq_some_iff.2 ho
  obtain rfl | rfl := hi <;> simp only [State.pendingByte, hop, hv, groupByte]

theorem State.carryOutPending_of_idle {s : State} (hp : s.phase = .idle) : s.carryOutPending = s := by
  simp only [State.carryOutPending, hp]

theorem State.carryOutPending_of_encode {s : State} {i : Instr} {x : Word} (hi : i = .encU ∨ i = .encS)
    (hp : s.phase ≠ .idle) (ho : s.op = some i.op) (hv : s.v = some x) :
    s.carryOutPending = { s with snk := (s.snk.write (groupByte i x)).2 } := by
  have hbyte := State.pendingByte_of_encode hi ho hv
  have hop := map_instrOfOp_eq_some_iff.2 ho
  cases hphase : s.phase with
  | idle => exact absurd hphase hp
  | run | drain => obtain rfl | rfl := hi <;> simp only [State.carryOutPending, hphase, hop, hbyte]

/-- The pending request of a running decode asks the source for a byte (R116). -/
theorem State.carryOutPending_of_decode {s : State} {i : Instr} (hi : i = .decU ∨ i = .decS) (hp : s.phase ≠ .idle)
    (ho : s.op = some i.op) : s.carryOutPending = { s with src := s.src.read.2 } := by
  have hop := map_instrOfOp_eq_some_iff.2 ho
  cases hphase : s.phase with
  | idle => exact absurd hphase hp
  | run | drain => obtain rfl | rfl := hi <;> simp only [State.carryOutPending, hphase, hop]

/-- Reset takes the streams as a carried-out pending request leaves them (R116). -/
theorem State.resetCore_true_streams (s : State) :
    (s.resetCore true).src = s.carryOutPending.src ∧ (s.resetCore true).snk = s.carryOutPending.snk := ⟨rfl, rfl⟩

/-- Without a pending request, or with one not carried out, reset leaves the streams alone (R115, R116). -/
theorem State.resetCore_streams_of_not_moved {moved : Bool} {s : State} (h : moved = false ∨ s.phase = .idle) :
    (s.resetCore moved).src = s.src ∧ (s.resetCore moved).snk = s.snk := by
  cases moved with
  | false => exact ⟨rfl, rfl⟩
  | true =>
    have hidle := h.resolve_left nofun
    simpa only [State.carryOutPending_of_idle hidle] using s.resetCore_true_streams

theorem State.resetCore_streams_of_encode {s : State} {i : Instr} {x : Word} (hi : i = .encU ∨ i = .encS)
    (hp : s.phase ≠ .idle) (ho : s.op = some i.op) (hv : s.v = some x) :
    (s.resetCore true).src = s.src ∧ (s.resetCore true).snk = (s.snk.write (groupByte i x)).2 := by
  simpa only [State.carryOutPending_of_encode hi hp ho hv] using s.resetCore_true_streams

theorem State.resetCore_streams_of_decode {s : State} {i : Instr} (hi : i = .decU ∨ i = .decS) (hp : s.phase ≠ .idle)
    (ho : s.op = some i.op) : (s.resetCore true).src = s.src.read.2 ∧ (s.resetCore true).snk = s.snk := by
  simpa only [State.carryOutPending_of_decode hi hp ho] using s.resetCore_true_streams

/-- Settles O28: reset's registers are those of R31 (O27), and its streams go by the pending request's fate and direction. -/
theorem resetAbandonsCommand : Obligations.ResetAbandonsCommand := by
  intro s moved rest ha
  refine ⟨State.resetCore moved { s with agenda := rest }, step_of_cons ha, rfl, rfl, rfl, rfl, rfl, rfl, rfl, rfl, rfl,
    rfl, rfl, rfl, rfl, rfl, ?notMoved, ?decode, ?unsigned, ?signed⟩
  case notMoved => exact State.resetCore_streams_of_not_moved (s := { s with agenda := rest })
  case decode =>
    rintro rfl hp (ho | ho)
    · exact State.resetCore_streams_of_decode (s := { s with agenda := rest }) (.inl rfl) hp ho
    · exact State.resetCore_streams_of_decode (s := { s with agenda := rest }) (.inr rfl) hp ho
  case unsigned =>
    rintro x rfl hp ho hv
    exact State.resetCore_streams_of_encode (s := { s with agenda := rest }) (.inl rfl) hp ho hv
  case signed =>
    rintro x rfl hp ho hv
    exact State.resetCore_streams_of_encode (s := { s with agenda := rest }) (.inr rfl) hp ho hv

end Sys2Proof.Machine
